-- ==== Sys2Proof/Machine/Arith.lean ====
section
/-! DEFINITION. The arithmetic of 00_scope.md R10 in a form that can be run: exponentiation by squaring and the extended
Euclidean algorithm. "the algorithm used … is not visible to a program, only its result" (40_arith_kernel.md R81); that
these compute R10's functions is proved in Sys2Proof/Laws/Arith.lean. -/

namespace Sys2Proof.Machine

/-- Square and multiply: `acc * b ^ e` modulo `m`, for an exponent of at most `fuel` bits. -/
def powModLoop (m : Nat) : Nat → Nat → Nat → Nat → Nat
  | 0, _, _, acc => acc % m
  | fuel + 1, b, e, acc =>
    if e = 0 then acc % m
    else powModLoop m fuel (b * b % m) (e / 2) (if e % 2 = 1 then acc * b % m else acc)

/-- `modpow(b, e, m)` of 00_scope.md R10, for `m ≥ 1`: (b ^ e) mod m, with 0 ^ 0 = 1 (40_arith_kernel.md R87). -/
def powMod (b e m : Nat) : Nat := powModLoop m (e.log2 + 1) (b % m) e 1

/-- The extended Euclidean algorithm on remainders `r0`, `r1` and the coefficients that go with them: answers the
coefficient of the last non-zero remainder. -/
def inverseLoop : Nat → Nat → Nat → Int → Int → Int
  | 0, _, _, t0, _ => t0
  | fuel + 1, r0, r1, t0, t1 =>
    if r1 = 0 then t0 else inverseLoop fuel r1 (r0 % r1) t1 (t0 - (r0 / r1 : Nat) * t1)

/-- `modinv(a, m)` of 00_scope.md R10, for `m ≥ 1` and gcd(a, m) = 1: the x in [0, m) with (a * x) mod m = 1 mod m. -/
def modInv (a m : Nat) : Nat := (inverseLoop ((m * m).log2 + 1) m (a % m) 0 1 % (m : Int)).toNat

end Sys2Proof.Machine
end

