-- ==== Sys2Proof/Word.lean ====
section
/-! DEFINITION. The word types of the modular_exponentiation engine: the 8-bit byte (the error code, a byte of
the window) and the 32-bit bus word (00_scope.md R4, 20_memory.md R43). W-bit values are natural numbers, bounded by
an invariant (assumption log 2), because W is an open parameter. -/

namespace Sys2Proof

/-- A byte: the width of ERRCODE.CODE (10_state.md R27) and of one address of the window seen as bytes (20_memory.md R45). -/
abbrev Byte := BitVec 8

/-- A bus word: every host transaction moves exactly 32 bits (20_memory.md R43). -/
abbrev Word := BitVec 32

end Sys2Proof
end

