-- ==== Sys2Proof/Config.lean ====
section
/-! DEFINITION. What an implementation fixes (the open parameters NW, DEPTH and BASE of 00_scope.md R4 to R6) and the
free values: what the spec leaves unspecified. A free value is an opaque constant with no body, so no proof can see what it is. -/

namespace Sys2Proof

/-- The configuration of one block: the parameters the spec leaves OPEN (00_scope.md R4, R5, R6).
A state carries its configuration and no step changes it (assumption log 1). -/
structure Params where
  /-- NW, the number of 32-bit words of a W-bit value; W = 32 * NW (R4). -/
  nw    : Nat
  /-- DEPTH, the number of elements of the element buffer (R5). -/
  depth : Nat
  /-- BASE, where the platform places the 2 MiB window (R6). -/
  base  : Nat
  deriving DecidableEq, Repr

/-- The operand width W in bits (00_scope.md R4). -/
def Params.width (c : Params) : Nat := 32 * c.nw

/-- The number of 32-bit words of the element buffer, DEPTH * NW (10_state.md R29). -/
def Params.elemWords (c : Params) : Nat := c.depth * c.nw

/-- The ranges of the parameters (00_scope.md R4, R5). -/
abbrev Params.valid (c : Params) : Prop :=
  1 ≤ c.nw ∧ c.nw ≤ 1024 ∧ 1 ≤ c.depth ∧ c.depth ≤ 65535 ∧ c.depth * c.nw ≤ 262144

/-- The configuration of `State.reset`: NW = 2, DEPTH = 16, the configuration of 95_test_vectors.md section 2; BASE = 0.
DESIGN CHOICE (log 1): the spec leaves all three open. -/
def Params.standard : Params := { nw := 2, depth := 16, base := 0 }

/-- The n-th unspecified 32-bit value the host reads: an UNWRITTEN word (10_state.md R30), or any element word while
BUSY = 1 (20_memory.md R51). "chosen freely at each read" (00_scope.md R9). Log 4. -/
opaque Config.freeWord : Nat → Word

/-- What a host variable holds before the host program assigns it: the spec is silent (30_encoding.md R74). Log 11. -/
opaque Config.hostVarInit : Nat → Int

/-- `x div y` of the host outside `0 ≤ x`, `1 ≤ y`: the spec defines division only there (00_scope.md R8). Log 12. -/
opaque Config.hostDiv : Int → Int → Int

/-- `x mod y` of the host outside `0 ≤ x`, `1 ≤ y` (00_scope.md R8). Log 12. -/
opaque Config.hostMod : Int → Int → Int

/-- `x >> y` of the host where an operand is negative: no rule gives it (30_encoding.md R74). Log 12. -/
opaque Config.hostShr : Int → Int → Int

/-- `x & y` of the host where an operand is negative: no rule gives it (30_encoding.md R74). Log 12. -/
opaque Config.hostAnd : Int → Int → Int

end Sys2Proof
end

