-- ==== Sys2Proof/Machine/HostSyntax.lean ====
section
/-! DEFINITION. The syntax of a host program, 30_encoding.md R74: expressions over host variables and a list of lines.
Variables and labels are numbered (assumption log 10). -/

namespace Sys2Proof.Machine

/-- The host's operators (30_encoding.md R74: `+ - * div mod`, comparisons, `and`, `or`, `>>`, `&`). -/
inductive BinOp where
  | add | sub | mul | div | mod
  | eq | ne | lt | le | gt | ge
  | land | lor
  | shr | band
  deriving DecidableEq, Repr

/-- A host expression over variables and integer constants (30_encoding.md R74). -/
inductive Expr where
  | lit (z : Int)
  | var (x : Nat)
  | bin (op : BinOp) (l r : Expr)
  deriving DecidableEq, Repr

/-- One line of a host program (30_encoding.md R74). The transaction lines carry the number of bytes they move, so
that a transaction that is not 32 bits wide can be written down and refused (20_memory.md R44): R74's own `rd` and `wr` are
those of 4 bytes. -/
inductive Line where
  /-- `name:` -/
  | label (l : Nat)
  /-- `x <- rd OFF`: one read transaction of `bytes` bytes. -/
  | rd (x : Nat) (off bytes : Nat)
  /-- `wr OFF, expr`: one write transaction of `bytes` bytes of `expr mod 2^32`. -/
  | wr (off bytes : Nat) (e : Expr)
  /-- `x <- expr` -/
  | assign (x : Nat) (e : Expr)
  /-- `if expr goto label` -/
  | branch (e : Expr) (l : Nat)
  /-- `goto label` -/
  | jump (l : Nat)
  /-- The side condition of `ld` and `ldelem`, `0 <= val < 2^W` (30_encoding.md R77): no transaction, and a refusal
  where it does not hold ("`ld` of a value `>= 2^W` has no meaning"). Log 16. -/
  | fits (e : Expr)
  /-- `halt` -/
  | halt
  deriving DecidableEq, Repr

end Sys2Proof.Machine
end

