-- ==== Sys2Proof/Machine/State.lean ====
section
/-! DEFINITION. The state of the machine: the configuration, the block's state (the record of 10_state.md R13, whole),
the host agent (30_encoding.md R74), and the order of the events still to come (20_memory.md R58). Plain data. -/

namespace Sys2Proof.Machine

/-- The bytes of the element buffer that are written, by window offset, offsets strictly rising; an unlisted offset is
UNWRITTEN and has no value (10_state.md R30). Log 3. -/
abbrev Memory := List Host.Cell

/-- The operand registers (10_state.md R15). -/
inductive Operand where
  | a | b | e | m
  deriving DecidableEq, Repr

/-- The error codes (60_exceptions.md R98). Codes 5 to 255 are never produced. -/
inductive ErrorCode where
  | none | noInverse | zeroModulus | illegalCmd | lenRange
  deriving DecidableEq, Repr

/-- A command in flight, hidden from the host: the command word and the operands latched at acceptance
(10_state.md R34). -/
structure Pending where
  cmd : Word
  a   : Nat
  b   : Nat
  e   : Nat
  m   : Nat
  len : Word
  deriving DecidableEq, Repr

/-- The host: one bus master running a host program (30_encoding.md R74). Its position and variables are host state,
not block state (10_state.md R13, R14). -/
structure HostAgent where
  prog   : List Line
  /-- The index of the next line. -/
  pos    : Nat
  /-- The assigned variables, by number, numbers strictly rising. -/
  vars   : List (Nat × Int)
  /-- `halt` was executed (70_reset_and_hazards.md R132). -/
  halted : Bool
  deriving DecidableEq, Repr

/-- Which agent makes the next event of the run (00_scope.md R12, 20_memory.md R58). -/
inductive Move where
  | host | engine | reset
  deriving DecidableEq, Repr

/-- Why the machine stops with a fault. The block itself has no faults (20_memory.md R57, 60_exceptions.md R108). -/
inductive Fault where
  /-- A command's meaning was asked for with no command in flight: the engine has no step there (10_state.md R36,
  60_exceptions.md R99). Raised by every `exec…`; `step` never reaches it. Safe: a stuck state. Log 9. -/
  | engineNotEnabled
  deriving DecidableEq, Repr

/-- Why the model gives no meaning. All but `notModelled` are raised by the host's lines, and each is safe. -/
inductive Refusal where
  /-- A command without a meaning yet (none is left). Raised by `exec` only. Safe. -/
  | notModelled (mnemonic : String)
  /-- A transaction whose offset is not a multiple of 4 ("a model refuses such a transaction", 20_memory.md R44).
  Raised by the host lines `rd` and `wr`. Safe. -/
  | misaligned
  /-- A transaction that is not 32 bits wide (20_memory.md R44). Raised by the host lines `rd` and `wr`. Safe. -/
  | wrongWidth
  /-- An offset at or above 0x200000: it belongs to the platform (20_memory.md R41; 93_implementation_defined.md U10).
  Raised by the host lines `rd` and `wr`. Safe. -/
  | outsideWindow
  /-- A goto to a label that is not in the program "has no meaning" (30_encoding.md R74). Raised by the host lines
  `branch` and `jump`. Safe. -/
  | undefinedLabel
  /-- `ld` or `ldelem` of a value outside [0, 2^W) "has no meaning" (30_encoding.md R77). Raised by the line `fits`.
  Safe. -/
  | valueDoesNotFit
  deriving DecidableEq, Repr

/-- The state of the machine. Fields `a` to `pend` are `BlockState` of 10_state.md R13. -/
structure State where
  /-- The configuration: constants (00_scope.md R4 to R6). -/
  cfg     : Params
  /-- A, the first operand (10_state.md R15). -/
  a       : Nat
  /-- B, the second gcd operand (R15). -/
  b       : Nat
  /-- E, the exponent (R15). -/
  e       : Nat
  /-- M, the modulus (R15). -/
  m       : Nat
  /-- R, the result register (R16). -/
  r       : Nat
  /-- LEN, the number of elements MAP processes (R17). -/
  len     : Word
  /-- CTRL.IE (R21). -/
  ie      : Bool
  /-- STATUS.BUSY (R22). -/
  busy    : Bool
  /-- STATUS.DONE (R23). -/
  done    : Bool
  /-- STATUS.ERR (R24). -/
  err     : Bool
  /-- STATUS.OVR (R25). -/
  ovr     : Bool
  /-- ERRCODE.CODE (R27). -/
  errcode : Byte
  /-- ELEMW, the element buffer (R29, R30), as bytes of the window. -/
  elem    : Memory
  /-- PEND, the command in flight (R34). -/
  pend    : Option Pending
  /-- The host agent. -/
  host    : HostAgent
  /-- The model's own: who makes the next events, in order (20_memory.md R58). Log 6. -/
  sched   : List Move
  /-- The model's own: the index of the next unspecified value (00_scope.md R9). Log 5. -/
  draws   : Nat
  deriving DecidableEq, Repr

/-- A host with no program loaded. -/
def HostAgent.idle : HostAgent := { prog := [], pos := 0, vars := [], halted := false }

/-- The machine right after reset, for a configuration: every piece of block state at the value of
70_reset_and_hazards.md R120, and no host program loaded (log 8). -/
def State.resetWith (c : Params) : State where
  cfg := c
  a := 0
  b := 0
  e := 0
  m := 0
  r := 0
  len := 0#32
  ie := false
  busy := false
  done := false
  err := false
  ovr := false
  errcode := 0#8
  elem := []
  pend := none
  host := HostAgent.idle
  sched := []
  draws := 0

/-- The machine right after reset, in the configuration of 95_test_vectors.md (log 1). -/
def State.reset : State := State.resetWith Params.standard

end Sys2Proof.Machine
end

