-- ==== Sys2Proof/Machine/Flags.lean ====
section
/-! DEFINITION. Every status computation. The block has no arithmetic flags (10_state.md R33): its flags are BUSY, DONE,
ERR and OVR of STATUS and the level output irq. -/

namespace Sys2Proof.Machine

/-- One status bit as a 32-bit word with that bit at place `place`. -/
def flagBit (x : Bool) (place : Nat) : Word := if x then BitVec.ofNat 32 (2 ^ place) else 0#32

/-- What a read of STATUS returns: zext_32({OVR, ERR, DONE, BUSY}) (10_state.md R26). -/
def State.statusWord (s : State) : Word :=
  flagBit s.busy 0 ||| flagBit s.done 1 ||| flagBit s.err 2 ||| flagBit s.ovr 3

/-- What a read of CTRL returns: zext_32(IE) (10_state.md R21). -/
def State.ctrlWord (s : State) : Word := flagBit s.ie 0

/-- A write-1-to-clear bit after a write of `v` whose bit `place` stands for it (10_state.md R26). -/
def clearByOne (x : Bool) (v : Word) (place : Nat) : Bool := x && !v.getLsbD place

/-- The interrupt output, a level: irq = IE and DONE (10_state.md R32, 60_exceptions.md R104). -/
def State.irq (s : State) : Bool := s.ie && s.done

/-- The 8-bit error codes (60_exceptions.md R98). -/
def ErrorCode.toByte : ErrorCode → Byte
  | .none => 0#8
  | .noInverse => 1#8
  | .zeroModulus => 2#8
  | .illegalCmd => 3#8
  | .lenRange => 4#8

/-- ERR at a completion: code ≠ 0 (60_exceptions.md R99). -/
def ErrorCode.isError : ErrorCode → Bool
  | .none => false
  | .noInverse => true
  | .zeroModulus => true
  | .illegalCmd => true
  | .lenRange => true

end Sys2Proof.Machine
end

