-- ==== Sys2Proof/Syntax.lean ====
section
/-! DEFINITION. The commands of the block, one constructor per row of spec/opcode_table.json (30_encoding.md R71). -/

namespace Sys2Proof

/-- A legal command. The command word carries no operands: each command reads a fixed set of latched registers and
writes a fixed destination (30_encoding.md R69). -/
inductive Instr where
  /-- GCD, word 0x00000001: R becomes the greatest common divisor of A' and B' (40_arith_kernel.md R82). -/
  | gcd
  /-- MODINV, word 0x00000002: R becomes the inverse of A' modulo M' (40_arith_kernel.md R84). -/
  | modinv
  /-- MODPOW, word 0x00000003: R becomes A' to the power E' modulo M' (40_arith_kernel.md R86). -/
  | modpow
  /-- MAP, word 0x00000004: each of the first LEN' elements is raised to E' modulo M' (41_element_mapper.md R92). -/
  | map
  deriving DecidableEq, Repr

end Sys2Proof
end

