-- ==== Sys2Proof/Decode.lean ====
section
/-! DEFINITION. The decoding function of 30_encoding.md R73, total on every 32-bit word and on any bytes, rejecting by
name; and the encoder, written from the table of R71. -/

namespace Sys2Proof

/-- Why a word, or a list of bytes, is no legal command (30_encoding.md R72). -/
inductive IllegalWord where
  /-- RSVD, bits [31:4], is not 0. -/
  | reservedNotZero
  /-- OP is 0x0 or 0x5 to 0xF. -/
  | undefinedOp
  /-- Fewer than the four bytes of a command word (R68: every command is exactly one 32-bit word). -/
  | truncated
  deriving DecidableEq, Repr

/-- What a word decodes to. -/
inductive Decoded where
  | legal (i : Instr)
  | illegal (why : IllegalWord)
  deriving DecidableEq, Repr

/-- The field OP, bits [3:0] (30_encoding.md R67). -/
def opField (w : Word) : BitVec 4 := w.extractLsb' 0 4

/-- The field RSVD, bits [31:4] (30_encoding.md R67). -/
def rsvdField (w : Word) : BitVec 28 := w.extractLsb' 4 28

/-- `decode` of 30_encoding.md R73. -/
def decode (w : Word) : Decoded :=
  if rsvdField w ≠ 0 then .illegal .reservedNotZero
  else match (opField w).toNat with
    | 1 => .legal .gcd
    | 2 => .legal .modinv
    | 3 => .legal .modpow
    | 4 => .legal .map
    | _ => .illegal .undefinedOp

/-- The word whose four bytes, lowest address first, are these (little-endian, 20_memory.md R45). -/
def wordOfBytes (b0 b1 b2 b3 : Byte) : Word := b3 ++ b2 ++ b1 ++ b0

/-- Byte `b` of a word: bits [8b+7 : 8b] (20_memory.md R45). -/
def byteOfWord (w : Word) (b : Nat) : Byte := w.extractLsb' (8 * b) 8

/-- Decoding of bytes as they stand in the window: the first four are the command word. Gives the bytes left over. -/
def decodeBytes : List Byte → Decoded × List Byte
  | b0 :: b1 :: b2 :: b3 :: rest => (decode (wordOfBytes b0 b1 b2 b3), rest)
  | short => (.illegal .truncated, short)

/-- The command word of a command (30_encoding.md R71). -/
def encode : Instr → Word
  | .gcd => 0x00000001#32
  | .modinv => 0x00000002#32
  | .modpow => 0x00000003#32
  | .map => 0x00000004#32

/-- The bytes of a word, lowest address first (20_memory.md R45). -/
def bytesOfWord (w : Word) : List Byte :=
  [byteOfWord w 0, byteOfWord w 1, byteOfWord w 2, byteOfWord w 3]

/-- The bytes of a command. -/
def encodeBytes (i : Instr) : List Byte := bytesOfWord (encode i)

/-- The instruction this decoder reads from a table word: the word is laid out as its four bytes, little-endian, and
the bytes are decoded; bits from `nbits` up are 0, and nothing is longer than 32 bits. -/
def decodeTableWord (nbits w : Nat) : Option Instr :=
  if nbits ≤ 32 then
    match (decodeBytes (bytesOfWord (BitVec.ofNat 32 (w % 2 ^ nbits)))).1 with
    | .legal i => some i
    | .illegal _ => none
  else none

end Sys2Proof
end

