-- ==== Sys2Proof/Machine/Memory.lean ====
section
/-! DEFINITION. Sparse data by key, in one canonical form (keys strictly rising), and over it the element buffer: bytes,
32-bit words (20_memory.md R45, R51, R52) and W-bit elements (10_state.md R29, R30). -/

namespace Sys2Proof.Machine

/-- The value listed under a key, if any. -/
def lookupKey {α : Type} : List (Nat × α) → Nat → Option α
  | [], _ => none
  | (k, v) :: rest, key => if key = k then some v else lookupKey rest key

/-- Lists a value under a key, in its place. -/
def insertKey {α : Type} : List (Nat × α) → Nat → α → List (Nat × α)
  | [], key, x => [(key, x)]
  | (k, v) :: rest, key, x =>
    if key < k then (key, x) :: (k, v) :: rest
    else if key = k then (key, x) :: rest
    else (k, v) :: insertKey rest key x

/-- Unlists a key. -/
def removeKey {α : Type} : List (Nat × α) → Nat → List (Nat × α)
  | [], _ => []
  | (k, v) :: rest, key => if key = k then removeKey rest key else (k, v) :: removeKey rest key

/-- Keys strictly rising. -/
abbrev KeysRise {α : Type} (l : List (Nat × α)) : Prop := l.Pairwise (fun x y => x.1 < y.1)

/-- The canonical form of a memory: offsets strictly rising. (An unlisted byte has no value, so no entry can equal
what an unlisted offset reads as.) -/
abbrev Memory.wf (mem : Memory) : Prop := KeysRise mem

/-- The byte at a window offset, none where it is UNWRITTEN. -/
def readByte (mem : Memory) (off : Nat) : Option Byte := lookupKey mem off

/-- The 32-bit word at a window offset, little-endian (20_memory.md R45); none where it is UNWRITTEN. -/
def readWord (mem : Memory) (off : Nat) : Option Word :=
  match readByte mem off, readByte mem (off + 1), readByte mem (off + 2), readByte mem (off + 3) with
  | some b0, some b1, some b2, some b3 => some (wordOfBytes b0 b1 b2 b3)
  | _, _, _, _ => none

/-- Writes the 32-bit word at a window offset; the word becomes written (10_state.md R30). -/
def writeWord (mem : Memory) (off : Nat) (w : Word) : Memory :=
  insertKey (insertKey (insertKey (insertKey mem off (byteOfWord w 0)) (off + 1) (byteOfWord w 1))
    (off + 2) (byteOfWord w 2)) (off + 3) (byteOfWord w 3)

/-- Makes the word at a window offset UNWRITTEN (10_state.md R30). -/
def eraseWord (mem : Memory) (off : Nat) : Memory :=
  removeKey (removeKey (removeKey (removeKey mem off) (off + 1)) (off + 2)) (off + 3)

/-- The window offset of the element buffer (20_memory.md R42). -/
def elemBase : Nat := 0x100000

/-- The window offset of ELEMW[k] (20_memory.md R42). -/
def elemOff (k : Nat) : Nat := elemBase + 4 * k

/-- The value of `n` consecutive words from word `k`, least significant first (20_memory.md R46); none when one of
them is UNWRITTEN. -/
def readWords (mem : Memory) (k : Nat) : Nat → Option Nat
  | 0 => some 0
  | n + 1 =>
    match readWord mem (elemOff k), readWords mem (k + 1) n with
    | some w, some hi => some (w.toNat + 2 ^ 32 * hi)
    | _, _ => none

/-- Writes a value into `n` consecutive words from word `k`, least significant first (20_memory.md R46). -/
def writeWords (mem : Memory) (k : Nat) : Nat → Nat → Memory
  | 0, _ => mem
  | n + 1, v => writeWords (writeWord mem (elemOff k) (BitVec.ofNat 32 v)) (k + 1) n (v / 2 ^ 32)

/-- Makes `n` consecutive words from word `k` UNWRITTEN. -/
def eraseWords (mem : Memory) (k : Nat) : Nat → Memory
  | 0 => mem
  | n + 1 => eraseWords (eraseWord mem (elemOff k)) (k + 1) n

/-- ELEM[i], of `nw` words: its value when it is defined, that is when all its words are written
(10_state.md R29, R30). -/
def readElem (nw : Nat) (mem : Memory) (i : Nat) : Option Nat := readWords mem (i * nw) nw

/-- ELEM[i] <- v. -/
def writeElem (nw : Nat) (mem : Memory) (i v : Nat) : Memory := writeWords mem (i * nw) nw v

/-- Every word of ELEM[i] <- UNWRITTEN. -/
def eraseElem (nw : Nat) (mem : Memory) (i : Nat) : Memory := eraseWords mem (i * nw) nw

end Sys2Proof.Machine
end

