-- ==== Sys2Proof/Machine/Operands.lean ====
section
/-! DEFINITION. Every operand form: the 32-bit words of a W-bit value (20_memory.md R46), the operand registers
(10_state.md R15), the operands latched at acceptance (R34), and the register map (20_memory.md R42). -/

namespace Sys2Proof.Machine

/-- Word `j` of a W-bit value: bits [32j+31 : 32j] (20_memory.md R46). -/
def wordAt (x j : Nat) : Word := BitVec.ofNat 32 (x / 2 ^ (32 * j))

/-- `X[32j+31 : 32j] <- v`, the other words unchanged (20_memory.md R47). -/
def setWordAt (x j : Nat) (v : Word) : Nat :=
  x % 2 ^ (32 * j) + 2 ^ (32 * j) * (v.toNat + 2 ^ 32 * (x / 2 ^ (32 * (j + 1))))

/-- An operand register's value. -/
def State.operand (s : State) : Operand → Nat
  | .a => s.a
  | .b => s.b
  | .e => s.e
  | .m => s.m

/-- Writes an operand register. -/
def State.setOperand (s : State) (x : Operand) (v : Nat) : State :=
  match x with
  | .a => { s with a := v }
  | .b => { s with b := v }
  | .e => { s with e := v }
  | .m => { s with m := v }

/-- What acceptance captures of a command word: the word and copies of A, B, E, M and LEN (10_state.md R34). -/
def State.latch (s : State) (cmd : Word) : Pending :=
  { cmd := cmd, a := s.a, b := s.b, e := s.e, m := s.m, len := s.len }

/-- What stands at an aligned offset of the window (20_memory.md R42). -/
inductive Place where
  | id | param | ctrl | status | cmd | errcode | len
  /-- Word `j` of an operand register. -/
  | operand (x : Operand) (j : Nat)
  /-- Word `j` of R. -/
  | result (j : Nat)
  /-- ELEMW[k]. -/
  | elem (k : Nat)
  /-- The RAZ/WI rows. -/
  | reserved
  deriving DecidableEq, Repr

/-- Word `j` of the register whose 0x1000-byte window is the `window`-th: A, B, E, M, then R (20_memory.md R42). -/
def registerPlace (window j : Nat) : Place :=
  match window with
  | 1 => .operand .a j
  | 2 => .operand .b j
  | 3 => .operand .e j
  | 4 => .operand .m j
  | _ => .result j

/-- The first row group of the register map, the control and status registers (20_memory.md R42, 10_state.md R18). -/
def controlPlace (off : Nat) : Place :=
  match off with
  | 0x000000 => .id
  | 0x000004 => .param
  | 0x000008 => .ctrl
  | 0x00000C => .status
  | 0x000010 => .cmd
  | 0x000014 => .errcode
  | 0x000018 => .len
  | _ => .reserved

/-- A word of a register window: words from NW on are beyond the operand's width (20_memory.md R42). -/
def windowPlace (c : Params) (off : Nat) : Place :=
  if off % 0x1000 / 4 < c.nw then registerPlace (off / 0x1000) (off % 0x1000 / 4) else .reserved

/-- Word `k` of the element window: words from DEPTH * NW on are beyond the buffer (20_memory.md R42). -/
def bufferPlace (c : Params) (k : Nat) : Place := if k < c.elemWords then .elem k else .reserved

/-- The row of the register map an aligned offset of the window falls in; each falls in exactly one
(20_memory.md R42). The rows stand in the order of their offsets. -/
def locate (c : Params) (off : Nat) : Place :=
  if off < 0x001000 then controlPlace off
  else if off < 0x006000 then windowPlace c off
  else if off < elemBase then .reserved
  else bufferPlace c ((off - elemBase) / 4)

end Sys2Proof.Machine
end

