-- ==== Sys2Proof/WellFormed.lean ====
section
/-! DEFINITION. What is well-formed: a command (always: it has no operands), a bus transaction (20_memory.md R43, R44,
R41), and a host program (30_encoding.md R74, R77). -/

namespace Sys2Proof

/-- A command has no operand fields (30_encoding.md R69), so each one is well-formed. -/
def Instr.wellFormed : Instr → Bool
  | .gcd => true
  | .modinv => true
  | .modpow => true
  | .map => true

/-- The size of the register window, 2 MiB (20_memory.md R41). -/
def windowSize : Nat := 0x200000

/-- A transaction the spec defines: 32 bits (20_memory.md R43), word aligned (R44), inside the window (R41). -/
def transactionWellFormed (off bytes : Nat) : Bool :=
  bytes == 4 && off % 4 == 0 && decide (off < windowSize)

namespace Machine

/-- The labels a program declares, in order. -/
def labelsOf : List Line → List Nat
  | [] => []
  | .label l :: rest => l :: labelsOf rest
  | _ :: rest => labelsOf rest

/-- One line beside the labels of its program: its transaction is defined and the label it jumps to exists
("A `goto` to a label not in the program has no meaning", 30_encoding.md R74). -/
def Line.wellFormed (labels : List Nat) : Line → Bool
  | .label _ => true
  | .rd _ off bytes => transactionWellFormed off bytes
  | .wr off bytes _ => transactionWellFormed off bytes
  | .assign _ _ => true
  | .branch _ l => labels.contains l
  | .jump l => labels.contains l
  | .fits _ => true
  | .halt => true

/-- No label is declared twice (log 14). -/
def labelsDistinct : List Nat → Bool
  | [] => true
  | l :: rest => !rest.contains l && labelsDistinct rest

/-- A host program: its labels are distinct and every line is well-formed. -/
def programWellFormed (prog : List Line) : Bool :=
  labelsDistinct (labelsOf prog) && prog.all (Line.wellFormed (labelsOf prog))

end Machine
end Sys2Proof
end

