-- ==== Sys2Proof/Machine/Ops.lean ====
section
/-! DEFINITION. The shared operations: acceptance of a command (10_state.md R35), completion with a code (60_exceptions.md
R99; the block's "exception", it takes no traps, R108), the read and write functions of the window (20_memory.md R50, R53),
reset (70_reset_and_hazards.md R120), and the host agent's own steps. -/

namespace Sys2Proof.Machine

/-! ### The block -/

/-- The tail of the engine's completion step: ERRCODE <- code, ERR <- (code ≠ 0), DONE <- 1, BUSY <- 0, PEND <- none
(60_exceptions.md R99). Every completion, successful or failed, ends in it. -/
def State.complete (s : State) (code : ErrorCode) : State :=
  { s with errcode := code.toByte, err := code.isError, done := true, busy := false, pend := none }

/-- A command's body that ends with a code, after its writes (if any) are made: the engine's next state. -/
def finish (code : ErrorCode) (s : State) : Host.Outcome State Fault Refusal := .next (s.complete code)

/-- The engine's step for a command's body: it runs on the latched operands, and there is no step when no command is
in flight (10_state.md R36, 60_exceptions.md R99). -/
def withPending (s : State) (body : Pending → Host.Outcome State Fault Refusal) : Host.Outcome State Fault Refusal :=
  match s.pend with
  | none => .fault .engineNotEnabled
  | some p => body p

/-- A command word written while no command is in flight: it is latched with its operands, BUSY is set, DONE and ERR
are cleared; ERRCODE, R and ELEM are unchanged (10_state.md R35). -/
def State.accept (s : State) (v : Word) : State :=
  { s with pend := some (s.latch v), busy := true, done := false, err := false }

/-- A host write dropped because a command is in flight: it sets OVR and nothing else (60_exceptions.md R102). -/
def State.dropWrite (s : State) : State := { s with ovr := true }

/-- A write of STATUS: DONE, ERR and OVR are write 1 to clear; nothing else changes (10_state.md R26). The host's
acknowledgement of a completion is such a write (60_exceptions.md R109). -/
def State.writeStatus (s : State) (v : Word) : State :=
  { s with done := clearByOne s.done v 1, err := clearByOne s.err v 2, ovr := clearByOne s.ovr v 3 }

/-- A write of CMD: accept or drop (10_state.md R35). -/
def State.writeCmd (s : State) (v : Word) : State := if s.busy then s.dropWrite else s.accept v

/-- A write of ELEMW[k]: dropped while BUSY = 1 (20_memory.md R52). -/
def State.writeElemWord (s : State) (k : Nat) (v : Word) : State :=
  if s.busy then s.dropWrite else { s with elem := writeWord s.elem (elemOff k) v }

/-- What ID reads (10_state.md R19). -/
def idWord : Word := 0x4D455850#32

/-- What PARAM reads: [15:0] NW, [31:16] DEPTH (10_state.md R20). -/
def Params.paramWord (c : Params) : Word := BitVec.ofNat 16 c.depth ++ BitVec.ofNat 16 c.nw

/-- The read function of the window at an aligned offset (20_memory.md R50), none where the value is unspecified: an
element word while BUSY = 1 (R51), or an UNWRITTEN one (10_state.md R30). -/
def State.wordInWindow (s : State) (off : Nat) : Option Word :=
  match locate s.cfg off with
  | .id => some idWord
  | .param => some (Params.paramWord s.cfg)
  | .ctrl => some s.ctrlWord
  | .status => some s.statusWord
  | .cmd => some 0#32
  | .errcode => some (s.errcode.setWidth 32)
  | .len => some s.len
  | .operand x j => some (wordAt (s.operand x) j)
  | .result j => some (wordAt s.r j)
  | .elem k => if s.busy then none else readWord s.elem (elemOff k)
  | .reserved => some 0#32

/-- The window as a platform presents it in bytes: byte `b` at BASE + off + b is bits [8b+7 : 8b] of the word at `off`
(20_memory.md R45); none outside the window, and where the word is unspecified. -/
def State.platformByte (s : State) (addr : Nat) : Option Byte :=
  if s.cfg.base ≤ addr ∧ addr < s.cfg.base + windowSize then
    let off := addr - s.cfg.base
    (s.wordInWindow (off / 4 * 4)).map (fun w => byteOfWord w (off % 4))
  else none

/-- `HostRead(off)` at an aligned offset of the window: the value, and the state after it. A read changes no state of
the block (20_memory.md R50); an unspecified value is the next free value, and the model's own index of free values moves
on (00_scope.md R9, logs 4 and 5). -/
def State.hostRead (s : State) (off : Nat) : Word × State :=
  match s.wordInWindow off with
  | some w => (w, s)
  | none => (Config.freeWord s.draws, { s with draws := s.draws + 1 })

/-- `HostWrite(off, v)` at an aligned offset of the window (20_memory.md R53). -/
def State.hostWrite (s : State) (off : Nat) (v : Word) : State :=
  match locate s.cfg off with
  | .id => s
  | .param => s
  | .ctrl => { s with ie := v.getLsbD 0 }
  | .status => s.writeStatus v
  | .cmd => s.writeCmd v
  | .errcode => s
  | .len => { s with len := v }
  | .operand x j => s.setOperand x (setWordAt (s.operand x) j v)
  | .result _ => s
  | .elem k => s.writeElemWord k v
  | .reserved => s

/-- Which transaction the model refuses: one that is not 32 bits wide or not word aligned (20_memory.md R44), or
outside the window (R41). -/
def refusedTransaction (off bytes : Nat) : Option Refusal :=
  if bytes ≠ 4 then some .wrongWidth
  else if off % 4 ≠ 0 then some .misaligned
  else if windowSize ≤ off then some .outsideWindow
  else none

/-- Reset, in one atomic step: every piece of block state at its value of 70_reset_and_hazards.md R120; a command in
flight is abandoned (R121). The configuration does not change; the host agent, the events to come and the index of free
values are not the block's (log 17). -/
def State.resetBlock (s : State) : State :=
  { s with
    a := 0, b := 0, e := 0, m := 0, r := 0, len := 0#32, ie := false, busy := false, done := false, err := false,
    ovr := false, errcode := 0#8, elem := [], pend := none }

/-! ### The host agent -/

/-- The value of a host variable; before any assignment a free value (log 11). -/
def HostAgent.getVar (h : HostAgent) (x : Nat) : Int := (lookupKey h.vars x).getD (Config.hostVarInit x)

/-- The host moves on to its next line. -/
def State.advance (s : State) : State := { s with host := { s.host with pos := s.host.pos + 1 } }

/-- The host assigns a variable. -/
def State.setVar (s : State) (x : Nat) (v : Int) : State :=
  { s with host := { s.host with vars := insertKey s.host.vars x v } }

/-- The host's next line is line `pos`. -/
def State.gotoLine (s : State) (pos : Nat) : State := { s with host := { s.host with pos := pos } }

/-- `halt`: the host program ends (70_reset_and_hazards.md R132). -/
def State.haltHost (s : State) : State := { s with host := { s.host with halted := true } }

/-- A host program is loaded from outside the machine, with the order of the events to come (log 8). -/
def State.load (s : State) (prog : List Line) (sched : List Move) : State :=
  { s with host := { prog := prog, pos := 0, vars := [], halted := false }, sched := sched }

end Sys2Proof.Machine
end

