-- ==== Sys2Proof/Machine/Kernel.lean ====
section
/-! DEFINITION. The arithmetic kernel commands: GCD, MODINV, MODPOW (40_arith_kernel.md). Each meaning is the body of the
engine's completion step for its command (60_exceptions.md R99): it computes from the latched operands only. -/

namespace Sys2Proof.Machine

/-- `complete_GCD` (40_arith_kernel.md R82): R <- gcd(A', B'). It never fails. -/
def execGcd (s : State) : Host.Outcome State Fault Refusal :=
  withPending s fun p => finish .none { s with r := Nat.gcd p.a p.b }

/-- `complete_MODINV` (40_arith_kernel.md R84), with the error condition of R83. -/
def execModinv (s : State) : Host.Outcome State Fault Refusal :=
  withPending s fun p =>
    if Nat.gcd p.a p.m ≠ 1 then finish .noInverse s
    else if p.m = 0 then finish .zeroModulus s
    else finish .none { s with r := modInv p.a p.m }

/-- `complete_MODPOW` (40_arith_kernel.md R86), with the error condition of R85. -/
def execModpow (s : State) : Host.Outcome State Fault Refusal :=
  withPending s fun p =>
    if p.m = 0 then finish .zeroModulus s
    else finish .none { s with r := powMod p.a p.e p.m }

end Sys2Proof.Machine
end

