-- ==== Sys2Proof/Machine/Mapper.lean ====
section
/-! DEFINITION. The element-wise modular cipher mapper: MAP (41_element_mapper.md). -/

namespace Sys2Proof.Machine

/-- One lane of MAP: a defined element becomes its power, an undefined one becomes (or stays) UNWRITTEN in all its
words (41_element_mapper.md R92). It reads and writes only ELEM[i] (R91). -/
def mapLane (nw e m : Nat) (mem : Memory) (i : Nat) : Memory :=
  match readElem nw mem i with
  | some v => writeElem nw mem i (powMod v e m)
  | none => eraseElem nw mem i

/-- The lanes 0 to `n - 1`. Lanes do not touch one another, so the order cannot be seen (41_element_mapper.md R91, R95). -/
def mapLanes (nw e m : Nat) (mem : Memory) : Nat → Memory
  | 0 => mem
  | n + 1 => mapLane nw e m (mapLanes nw e m mem n) n

/-- `complete_MAP` (41_element_mapper.md R92), its two checks before any element is written (R93). -/
def execMap (s : State) : Host.Outcome State Fault Refusal :=
  withPending s fun p =>
    if p.m = 0 then finish .zeroModulus s
    else if s.cfg.depth < p.len.toNat then finish .lenRange s
    else finish .none { s with elem := mapLanes s.cfg.nw p.e p.m s.elem p.len.toNat }

end Sys2Proof.Machine
end

