-- ==== Sys2Proof/Machine/Engine.lean ====
section
/-! DEFINITION. The engine's completion step, `engine_complete` of 60_exceptions.md R99. -/

namespace Sys2Proof.Machine

/-- The completion of the command in flight: its word is decoded; an illegal one fails with ILLEGAL_CMD and nothing
else is checked (60_exceptions.md R106); a legal one runs its body. With no command in flight the engine has no step, and
its turn passes (log 7). -/
def engineComplete (s : State) : Host.Outcome State Fault Refusal :=
  match s.pend with
  | none => .next s
  | some p =>
    match decode p.cmd with
    | .illegal _ => finish .illegalCmd s
    | .legal i => exec i s

end Sys2Proof.Machine
end

