-- ==== Sys2Proof/Machine/HostProgram.lean ====
section
/-! DEFINITION. The host agent's step: one line of its program (30_encoding.md R74). -/

namespace Sys2Proof.Machine

/-- A truth value as a host integer. DESIGN CHOICE (log 13). -/
def ofTruth (x : Bool) : Int := if x then 1 else 0

/-- Whether a host integer counts as true. DESIGN CHOICE (log 13). -/
def countsAsTrue (x : Int) : Bool := x != 0

/-- `x div y`, given by 00_scope.md R8 for 0 ≤ x and 1 ≤ y; a free value elsewhere (log 12). -/
def hostDiv (x y : Int) : Int := if 0 ≤ x ∧ 1 ≤ y then x / y else Config.hostDiv x y

/-- `x mod y`, given by 00_scope.md R8 for 0 ≤ x and 1 ≤ y; a free value elsewhere (log 12). -/
def hostMod (x y : Int) : Int := if 0 ≤ x ∧ 1 ≤ y then x % y else Config.hostMod x y

/-- `x >> y` on non-negative integers; a free value elsewhere (log 12). -/
def hostShr (x y : Int) : Int := if 0 ≤ x ∧ 0 ≤ y then ((x.toNat >>> y.toNat : Nat) : Int) else Config.hostShr x y

/-- `x & y` on non-negative integers; a free value elsewhere (log 12). -/
def hostAnd (x y : Int) : Int := if 0 ≤ x ∧ 0 ≤ y then ((x.toNat &&& y.toNat : Nat) : Int) else Config.hostAnd x y

/-- The host's operators on unbounded integers (30_encoding.md R74). -/
def BinOp.eval (op : BinOp) (x y : Int) : Int :=
  match op with
  | .add => x + y
  | .sub => x - y
  | .mul => x * y
  | .div => hostDiv x y
  | .mod => hostMod x y
  | .eq => ofTruth (x == y)
  | .ne => ofTruth (x != y)
  | .lt => ofTruth (decide (x < y))
  | .le => ofTruth (decide (x ≤ y))
  | .gt => ofTruth (decide (y < x))
  | .ge => ofTruth (decide (y ≤ x))
  | .land => ofTruth (countsAsTrue x && countsAsTrue y)
  | .lor => ofTruth (countsAsTrue x || countsAsTrue y)
  | .shr => hostShr x y
  | .band => hostAnd x y

/-- The value of a host expression. -/
def Expr.eval (h : HostAgent) : Expr → Int
  | .lit z => z
  | .var x => h.getVar x
  | .bin op l r => op.eval (l.eval h) (r.eval h)

/-- The 32-bit value `wr` puts on the bus: `expr mod 2^32` (30_encoding.md R74). -/
def busValue (z : Int) : Word := BitVec.ofInt 32 (hostMod z (2 ^ 32))

/-- The line that declares a label, counted from the program's first line; the first one if there are several
(log 14). -/
def findLabel : List Line → Nat → Option Nat
  | [], _ => none
  | line :: rest, l => if line = .label l then some 0 else (findLabel rest l).map (· + 1)

/-- `goto l`: a label that is not in the program has no meaning (30_encoding.md R74). -/
def gotoLabel (l : Nat) (s : State) : Host.Outcome State Fault Refusal :=
  match findLabel s.host.prog l with
  | some pos => .next (s.gotoLine pos)
  | none => .refused .undefinedLabel

/-- `x <- rd OFF` (30_encoding.md R74). -/
def hostRd (x off bytes : Nat) (s : State) : Host.Outcome State Fault Refusal :=
  match refusedTransaction off bytes with
  | some why => .refused why
  | none => .next (((s.hostRead off).2.setVar x ((s.hostRead off).1.toNat : Int)).advance)

/-- `wr OFF, expr` (30_encoding.md R74). -/
def hostWr (off bytes : Nat) (e : Expr) (s : State) : Host.Outcome State Fault Refusal :=
  match refusedTransaction off bytes with
  | some why => .refused why
  | none => .next ((s.hostWrite off (busValue (e.eval s.host))).advance)

/-- One line of the host program (30_encoding.md R74). -/
def hostLine (line : Line) (s : State) : Host.Outcome State Fault Refusal :=
  match line with
  | .label _ => .next s.advance
  | .rd x off bytes => hostRd x off bytes s
  | .wr off bytes e => hostWr off bytes e s
  | .assign x e => .next ((s.setVar x (e.eval s.host)).advance)
  | .branch e l => if countsAsTrue (e.eval s.host) then gotoLabel l s else .next s.advance
  | .jump l => gotoLabel l s
  | .fits e =>
    if 0 ≤ e.eval s.host ∧ e.eval s.host < 2 ^ s.cfg.width then .next s.advance else .refused .valueDoesNotFit
  | .halt => .next s.haltHost

/-- The host's turn: its next line. After `halt`, and past the last line, the host issues nothing more and its turn
passes (70_reset_and_hazards.md R132, log 7). -/
def hostMove (s : State) : Host.Outcome State Fault Refusal :=
  if s.host.halted then .next s
  else match s.host.prog[s.host.pos]? with
    | some line => hostLine line s
    | none => .next s

end Sys2Proof.Machine
end

