-- ==== Sys2Proof/Machine/Pseudo.lean ====
section
/-! DEFINITION. The host's symbolic offsets, command mnemonics and pseudo-instructions as expansions into lines
(30_encoding.md R75 to R80). Scratch variables and labels are arguments: the caller picks ones the program does not use. -/

namespace Sys2Proof.Machine

/-! ### Symbolic offsets (R75) -/

def offId : Nat := 0x000000
def offParam : Nat := 0x000004
def offCtrl : Nat := 0x000008
def offStatus : Nat := 0x00000C
def offCmd : Nat := 0x000010
def offErrcode : Nat := 0x000014
def offLen : Nat := 0x000018
def offResult : Nat := 0x005000

/-- A, B, E, M. -/
def offOperand : Operand → Nat
  | .a => 0x001000
  | .b => 0x002000
  | .e => 0x003000
  | .m => 0x004000

/-- `X.w[j]` of a register at offset `base`. -/
def offWord (base j : Nat) : Nat := base + 4 * j

/-- `ELEM[i].w[j]`. -/
def offElemWord (nw i j : Nat) : Nat := 0x100000 + 4 * (i * nw + j)

/-! ### Transactions and command mnemonics (R74, R76) -/

/-- `x <- rd OFF`, 32 bits. -/
def rd (x off : Nat) : Line := .rd x off 4

/-- `wr OFF, expr`, 32 bits. -/
def wr (off : Nat) (e : Expr) : Line := .wr off 4 e

def cmdGcd : List Line := [wr offCmd (.lit 0x00000001)]
def cmdModinv : List Line := [wr offCmd (.lit 0x00000002)]
def cmdModpow : List Line := [wr offCmd (.lit 0x00000003)]
def cmdMap : List Line := [wr offCmd (.lit 0x00000004)]

/-! ### Transfers (R77) -/

/-- `(val >> (32*j)) & 0xFFFFFFFF` -/
def wordExpr (val : Expr) (j : Nat) : Expr := .bin .band (.bin .shr val (.lit (32 * j))) (.lit 0xFFFFFFFF)

/-- The NW word writes of `ld` and `ldelem`, in increasing `j`, after the check that the value fits (log 16). -/
def storeWords (nw base : Nat) (val : Expr) : List Line :=
  .fits val :: (List.range nw).map (fun j => wr (offWord base j) (wordExpr val j))

/-- The NW word reads of `st` and `stelem` into `x`, in increasing `j`, through a scratch variable `t`. -/
def loadWords (nw base x t : Nat) : List Line :=
  .assign x (.lit 0) ::
    (List.range nw).flatMap (fun j =>
      [rd t (offWord base j), .assign x (.bin .add (.var x) (.bin .mul (.var t) (.lit (2 ^ (32 * j)))))])

/-- `ld X, val` -/
def ld (nw : Nat) (x : Operand) (val : Expr) : List Line := storeWords nw (offOperand x) val

/-- `ldelem i, val`. An element from DEPTH on is not checked for (log 18). -/
def ldelem (nw i : Nat) (val : Expr) : List Line := storeWords nw (offElemWord nw i 0) val

/-- `x <- st X` for an operand register. -/
def st (nw x : Nat) (reg : Operand) (t : Nat) : List Line := loadWords nw (offOperand reg) x t

/-- `x <- st R` -/
def stResult (nw x t : Nat) : List Line := loadWords nw offResult x t

/-- `x <- stelem i`. An element from DEPTH on is not checked for (log 18). -/
def stelem (nw x i t : Nat) : List Line := loadWords nw (offElemWord nw i 0) x t

/-! ### Waiting (R78) -/

/-- `wait`: polls STATUS into `s` until BUSY = 0, at a label of its own. -/
def wait (s label : Nat) : List Line :=
  [.label label, rd s offStatus, .branch (.bin .eq (.bin .band (.var s) (.lit 1)) (.lit 1)) label]

/-! ### Ciphers (R79), gcd and inverse (R80) -/

/-- `x <- enc_scalar v` with the exponent e, and `x <- dec_scalar c` with the exponent d. -/
def cipherScalar (nw x : Nat) (v exponent modulus : Expr) (s t label : Nat) : List Line :=
  ld nw .a v ++ ld nw .e exponent ++ ld nw .m modulus ++ cmdModpow ++ wait s label ++ stResult nw x t

/-- `enc_scalar`, the source's `encrypt_scalar(value, e, n)`. -/
def encScalar (nw x : Nat) (v e n : Expr) (s t label : Nat) : List Line := cipherScalar nw x v e n s t label

/-- `dec_scalar`, the source's `decrypt_scalar(value, d, n)`. -/
def decScalar (nw x : Nat) (c d n : Expr) (s t label : Nat) : List Line := cipherScalar nw x c d n s t label

/-- The element loads of `enc_seq`: `ldelem i, v_i` from element `i` on. -/
def ldelems (nw : Nat) : Nat → List Expr → List Line
  | _, [] => []
  | i, v :: rest => ldelem nw i v ++ ldelems nw (i + 1) rest

/-- `dec_seq`: ELEM[0 .. LEN-1] already hold ciphertext. -/
def decSeq (nw : Nat) (d n : Expr) (s label : Nat) : List Line :=
  ld nw .e d ++ ld nw .m n ++ cmdMap ++ wait s label

/-- `enc_seq [v_0 .. v_(L-1)]`. "`enc_seq` needs `L <= DEPTH`" (30_encoding.md R79); DESIGN CHOICE (log 18): a longer
one is the same expansion, run line by line with no check of L. -/
def encSeq (nw : Nat) (vs : List Expr) (e n : Expr) (s label : Nat) : List Line :=
  ldelems nw 0 vs ++ [wr offLen (.lit vs.length)] ++ ld nw .e e ++ ld nw .m n ++ cmdMap ++ wait s label

/-- `x <- gcd_of a, b` -/
def gcdOf (nw x : Nat) (a b : Expr) (s t label : Nat) : List Line :=
  ld nw .a a ++ ld nw .b b ++ cmdGcd ++ wait s label ++ stResult nw x t

/-- `x <- inverse_of a, m`: the caller checks ERR in `s` before using `x`. -/
def inverseOf (nw x : Nat) (a m : Expr) (s t label : Nat) : List Line :=
  ld nw .a a ++ ld nw .m m ++ cmdModinv ++ wait s label ++ stResult nw x t

end Sys2Proof.Machine
end

