-- ==== Sys2Proof/Machine/Step.lean ====
section
/-! DEFINITION. One step of the machine: the next event of the run (20_memory.md R58). -/

namespace Sys2Proof.Machine

/-- The event a given agent makes. -/
def makeMove (who : Move) (s : State) : Host.Outcome State Fault Refusal :=
  match who with
  | .host => hostMove s
  | .engine => engineComplete s
  | .reset => .next s.resetBlock

/-- Who moves when no order is given any more: the engine while a command is in flight, so that every accepted command
completes (00_scope.md R7, 60_exceptions.md R99), else the host. Log 6. -/
def defaultMover (s : State) : Move := if s.pend.isSome then .engine else .host

/-- Who makes the next event: the head of the order given, or the default. -/
def nextMover (s : State) : Move :=
  match s.sched with
  | [] => defaultMover s
  | who :: _ => who

/-- The state with the next event taken off the order given. -/
def State.popMove (s : State) : State := { s with sched := s.sched.tail }

/-- One step: the next event of the run's total order. -/
def step (s : State) : Host.Outcome State Fault Refusal := makeMove (nextMover s) s.popMove

/-- `s` with the command word `w` stored where the engine takes its next command: accepted into PEND with the operands
of `s` (10_state.md R35), the completion being the next event. Log 8. -/
def State.withFetchWord (s : State) (nbits w : Nat) : State :=
  { s.accept (BitVec.ofNat 32 (w % 2 ^ nbits)) with sched := .engine :: s.sched }

end Sys2Proof.Machine
end

