-- ==== Sys2Proof/Safety.lean ====
section
/-! DEFINITION. What claims about runs are stated in: the invariant of every reachable state (10_state.md R36 and the
widths of R13), and the end of a run (70_reset_and_hazards.md R132). -/

namespace Sys2Proof.Machine

/-- The latched operands are W-bit values (10_state.md R34). -/
def Pending.Fits (width : Nat) (p : Pending) : Prop :=
  p.a < 2 ^ width ∧ p.b < 2 ^ width ∧ p.e < 2 ^ width ∧ p.m < 2 ^ width

/-- Every written byte lies in the element buffer of the configuration (10_state.md R29, 20_memory.md R42). -/
def Memory.InBuffer (c : Params) (mem : Memory) : Prop :=
  ∀ q, (readByte mem q).isSome → elemBase ≤ q ∧ q < elemOff c.elemWords

/-- The buffer is written by whole words: a written byte stands in a written word (10_state.md R30). -/
def Memory.WholeWords (mem : Memory) : Prop :=
  ∀ k d, d < 4 → (readByte mem (elemOff k + d)).isSome → (readWord mem (elemOff k)).isSome

/-- What holds in every reachable state: the parameters are in range (00_scope.md R4, R5), the W-bit values fit
(10_state.md R13), STATUS and PEND agree (R36), ERRCODE holds a code that exists (60_exceptions.md R98) and is not 0 while
ERR is 1, and the element buffer is in canonical form, inside its window, and written by whole words. -/
structure StateInv (s : State) : Prop where
  params    : s.cfg.valid
  aFits     : s.a < 2 ^ s.cfg.width
  bFits     : s.b < 2 ^ s.cfg.width
  eFits     : s.e < 2 ^ s.cfg.width
  mFits     : s.m < 2 ^ s.cfg.width
  rFits     : s.r < 2 ^ s.cfg.width
  pendFits  : ∀ p, s.pend = some p → p.Fits s.cfg.width
  busyIff   : s.busy = s.pend.isSome
  handshake : s.busy = true → s.done = false ∧ s.err = false
  codeExists : s.errcode.toNat ≤ 4
  errCode   : s.err = true → s.errcode ≠ 0#8
  memWf     : Memory.wf s.elem
  memIn     : Memory.InBuffer s.cfg s.elem
  memWhole  : Memory.WholeWords s.elem
  varsRise  : KeysRise s.host.vars

/-- The host program has ended and no command is in flight: "A claim about results in R or ELEM is meaningful only if
the final state has BUSY = 0" (70_reset_and_hazards.md R132). -/
def State.Quiescent (s : State) : Prop := s.host.halted = true ∧ s.busy = false

end Sys2Proof.Machine
end

