-- ==== Sys2Proof/Certificates/Slice0/Obligations.lean ====
section
/-! DEFINITION. The statements about the machine, one def each; OBLIGATIONS.json lists them. No statement rests on the
value of a free value or of the model's own fields. -/

open Sys2Proof Sys2Proof.Machine

/-! ### Encoding -/

/-- 30_encoding.md R71: the four command words, written out bit by bit, and the twelve illegal values of OP. -/
def Obligations.CommandWordsDecodeAsTheTableSays : Prop :=
  decode 0b00000000000000000000000000000001#32 = .legal .gcd ∧
  decode 0b00000000000000000000000000000010#32 = .legal .modinv ∧
  decode 0b00000000000000000000000000000011#32 = .legal .modpow ∧
  decode 0b00000000000000000000000000000100#32 = .legal .map ∧
  ∀ op : Nat, op = 0 ∨ (5 ≤ op ∧ op ≤ 15) → ∃ why, decode (BitVec.ofNat 32 op) = .illegal why

/-- 30_encoding.md R73: for every 32-bit word, which command it decodes to, and that it is illegal otherwise. -/
def Obligations.DecodeReadsEveryWordAsTheSpecSays : Prop :=
  ∀ v : Word,
    (decode v = .legal .gcd ↔ v.toNat / 16 = 0 ∧ v.toNat % 16 = 1) ∧
    (decode v = .legal .modinv ↔ v.toNat / 16 = 0 ∧ v.toNat % 16 = 2) ∧
    (decode v = .legal .modpow ↔ v.toNat / 16 = 0 ∧ v.toNat % 16 = 3) ∧
    (decode v = .legal .map ↔ v.toNat / 16 = 0 ∧ v.toNat % 16 = 4) ∧
    ((∃ why, decode v = .illegal why) ↔ v.toNat / 16 ≠ 0 ∨ v.toNat % 16 = 0 ∨ 5 ≤ v.toNat % 16)

/-- Decode and encode agree, on words, on bytes with anything behind them, and on the table's numbering; and nothing
but a command's own word, or its own four bytes, decodes to it. -/
def Obligations.DecodeAndEncodeAgree : Prop :=
  ∀ i : Instr, i.wellFormed = true →
    decode (encode i) = .legal i ∧
    (∀ rest : List Byte, decodeBytes (encodeBytes i ++ rest) = (.legal i, rest)) ∧
    decodeTableWord 32 (encode i).toNat = some i ∧
    (∀ v : Word, decode v = .legal i → v = encode i) ∧
    (∀ (bytes rest : List Byte), decodeBytes bytes = (.legal i, rest) → bytes = encodeBytes i ++ rest)

/-- 30_encoding.md R72: which words are legal; every other word is accepted like any command and completes with
ILLEGAL_CMD (3), writing no result. -/
def Obligations.IllegalWordIsAcceptedAndFails : Prop :=
  (∀ v : Word, (∃ i, decode v = .legal i) ↔ v.toNat / 16 = 0 ∧ v.toNat % 16 ∈ [1, 2, 3, 4]) ∧
  ∀ (v : Word) (s : State), ¬ (v.toNat / 16 = 0 ∧ v.toNat % 16 ∈ [1, 2, 3, 4]) →
    (s.busy = false → s.hostWrite 0x000010 v =
      { s with
        pend := some { cmd := v, a := s.a, b := s.b, e := s.e, m := s.m, len := s.len },
        busy := true, done := false, err := false }) ∧
    (∀ p, s.pend = some p → p.cmd = v → engineComplete s =
      .next { s with errcode := 3#8, err := true, done := true, busy := false, pend := none })

/-! ### The step -/

/-- A step in which the engine moves is the engine's completion step (60_exceptions.md R99) on the state with that event
taken off the order of events: PEND's word is decoded, a legal one runs its command, and an illegal one completes with
ILLEGAL_CMD (3) and no result (30_encoding.md R72). The engine moves when the order says so; that it also moves when no
order is left and a command is in flight is the model's choice, log 6. -/
def Obligations.EngineStepRunsTheDecodedCommand : Prop :=
  ∀ (s : State) (p : Pending),
    s.sched.head? = some .engine ∨ s.sched = [] → s.pend = some p →
      step s = engineComplete { s with sched := s.sched.tail } ∧
      (∀ i, decode p.cmd = .legal i → step s = exec i { s with sched := s.sched.tail }) ∧
      (∀ why, decode p.cmd = .illegal why →
        step s = .next { s with
          errcode := 3#8, err := true, done := true, busy := false, pend := none, sched := s.sched.tail })

/-- The word `withFetchWord` places is the command the very next step runs, on the operands of the state it was placed
in. That a placed word stands for an acceptance with the engine next is the model's choice, log 8. -/
def Obligations.PlacedWordRunsAsTheNextStep : Prop :=
  ∀ (s : State) (i : Instr),
    step (s.withFetchWord 32 (encode i).toNat) =
      exec i { s with
        pend := some { cmd := encode i, a := s.a, b := s.b, e := s.e, m := s.m, len := s.len },
        busy := true, done := false, err := false }

/-- A step in which the host moves runs the line at the host's position. The host moves when the order of events says
so; that it also moves when no order is left and no command is in flight is the model's choice, log 6; and that after `halt`
and past the last line its turn changes nothing but the order of events is the model's choice, log 7. -/
def Obligations.HostStepRunsTheLine : Prop :=
  ∀ s : State, s.sched.head? = some .host ∨ (s.sched = [] ∧ s.pend = none) →
    (∀ line, s.host.halted = false → s.host.prog[s.host.pos]? = some line →
      step s = hostLine line { s with sched := s.sched.tail }) ∧
    (s.host.halted = true ∨ s.host.prog[s.host.pos]? = none → step s = .next { s with sched := s.sched.tail })

/-- 10_state.md R36, its last sentence, in the form of the meanings: with no command in flight the engine has no
step, so a command's meaning stops and the engine's turn changes nothing (the model's choice of how, logs 7 and 9). -/
def Obligations.EngineHasNoStepWithoutACommand : Prop :=
  ∀ s : State, s.pend = none →
    (∀ i, exec i s = .fault .engineNotEnabled) ∧
    (s.sched.head? = some .engine → step s = .next { s with sched := s.sched.tail })

/-- 70_reset_and_hazards.md R120, R121: a reset, at any time, also with a command in flight. That it leaves the host
agent, the configuration, the rest of the order of events and the index of free values as they are is the model's
inference, log 17. -/
def Obligations.ResetEventSetsEveryResetValue : Prop :=
  ∀ (s : State) (rest : List Move), s.sched = .reset :: rest →
    ∃ t, step s = .next t ∧
      t = { s with
        a := 0, b := 0, e := 0, m := 0, r := 0, len := 0#32, ie := false, busy := false, done := false, err := false,
        ovr := false, errcode := 0#8, elem := [], pend := none, sched := rest } ∧
      (∀ q, readByte t.elem q = none) ∧ t.irq = false ∧
      t.hostRead 0x000000 = ((s.hostRead 0x000000).1, t) ∧ t.hostRead 0x000004 = ((s.hostRead 0x000004).1, t)

/-- 70_reset_and_hazards.md R122: the state a run starts in, for every configuration: no command in flight, no status
bit set, interrupt disabled, every operand 0, nothing in the element buffer; and the engine executes nothing in it (that its
turn then passes, and changes nothing, is the model's choice, log 7). -/
def Obligations.StateAfterReset : Prop :=
  ∀ c : Params,
    let s := State.resetWith c
    s.cfg = c ∧ s.a = 0 ∧ s.b = 0 ∧ s.e = 0 ∧ s.m = 0 ∧ s.r = 0 ∧ s.len = 0#32 ∧ s.ie = false ∧ s.busy = false ∧
    s.done = false ∧ s.err = false ∧ s.ovr = false ∧ s.errcode = 0#8 ∧ s.pend = none ∧ s.irq = false ∧
    (∀ k, readWord s.elem (elemOff k) = none) ∧ engineComplete s = .next s

/-! ### The invariant -/

/-- The invariant holds after reset, for every configuration whose parameters are in range. -/
def Obligations.ResetMeetsTheInvariant : Prop :=
  (∀ c : Params, c.valid → StateInv (State.resetWith c)) ∧ StateInv State.reset

/-- Every step, from every state that meets it, keeps the invariant: the W-bit values fit (10_state.md R13), STATUS and
PEND agree (R36), ERRCODE holds an existing code (60_exceptions.md R98), the element buffer is in canonical form, inside its
window and written by whole words. The configuration is constant. -/
def Obligations.EveryStepKeepsTheInvariant : Prop :=
  ∀ s t : State, StateInv s → step s = .next t → StateInv t ∧ t.cfg = s.cfg

/-- 10_state.md R36, for every run of every host program under every order of events: BUSY = 1 iff PEND is not none,
and then DONE = 0 and ERR = 0; and the engine has a step exactly when PEND is not none (that its turn passes when PEND is
none is the model's choice, log 7). -/
def Obligations.BusyMeansACommandIsInFlight : Prop :=
  (∀ (c : Params) (prog : List Line) (sched : List Move) (n : Nat) (t : State), c.valid →
    Sys2Proof.core.run n ((State.resetWith c).load prog sched) = .next t →
    (t.busy = true ↔ t.pend ≠ none) ∧ (t.busy = true → t.done = false ∧ t.err = false)) ∧
  ∀ s : State,
    (s.pend ≠ none → ∃ t, engineComplete s = .next t ∧ t.pend = none ∧ t.done = true) ∧
    (s.pend = none → engineComplete s = .next s)

/-! ### The arithmetic kernel -/

/-- 40_arith_kernel.md R82: GCD writes R with the function the two gcd equations of 00_scope.md R10 define, and never
fails. Everything else is unchanged. -/
def Obligations.GcdCompletesWithTheGcd : Prop :=
  decode 0x00000001#32 = .legal .gcd ∧
  ∃ g : Nat → Nat → Nat,
    (∀ a, g a 0 = a) ∧ (∀ a b, 1 ≤ b → g a b = g b (a % b)) ∧
    (∀ a b, g a b = g b a ∧ g a b ≤ max a b) ∧ g 48 18 = 6 ∧
    ∀ (s : State) (p : Pending), s.pend = some p →
      exec .gcd s = .next { s with
        r := g p.a p.b, errcode := 0#8, err := false, done := true, busy := false, pend := none }

/-- 40_arith_kernel.md R83, R84: MODINV fails with NO_INVERSE exactly when gcd(A', M') is not 1, with ZERO_MODULUS
exactly when A' = 1 and M' = 0, and else writes the one x in [0, M') with (A' x) mod M' = 1 mod M'. -/
def Obligations.ModinvCompletesWithTheInverse : Prop :=
  decode 0x00000002#32 = .legal .modinv ∧
  ∀ (s : State) (p : Pending), s.pend = some p →
    (Nat.gcd p.a p.m ≠ 1 →
      exec .modinv s = .next { s with errcode := 1#8, err := true, done := true, busy := false, pend := none }) ∧
    (p.a = 1 ∧ p.m = 0 →
      exec .modinv s = .next { s with errcode := 2#8, err := true, done := true, busy := false, pend := none }) ∧
    (Nat.gcd p.a p.m = 1 → ¬ (p.a = 1 ∧ p.m = 0) →
      ∃ x, x < p.m ∧ p.a * x % p.m = 1 % p.m ∧ (∀ y, y < p.m → p.a * y % p.m = 1 % p.m → y = x) ∧
        exec .modinv s = .next { s with
          r := x, errcode := 0#8, err := false, done := true, busy := false, pend := none })

/-- 40_arith_kernel.md R85, R86, R87: MODPOW fails with ZERO_MODULUS exactly when M' = 0 and else writes
(A' ^ E') mod M', which is 1 mod M' for E' = 0 and every A'. -/
def Obligations.ModpowCompletesWithThePower : Prop :=
  decode 0x00000003#32 = .legal .modpow ∧
  ∀ (s : State) (p : Pending), s.pend = some p →
    (p.m = 0 →
      exec .modpow s = .next { s with errcode := 2#8, err := true, done := true, busy := false, pend := none }) ∧
    (p.m ≠ 0 →
      exec .modpow s = .next { s with
        r := p.a ^ p.e % p.m, errcode := 0#8, err := false, done := true, busy := false, pend := none }) ∧
    (p.m ≠ 0 → p.e = 0 →
      exec .modpow s = .next { s with
        r := 1 % p.m, errcode := 0#8, err := false, done := true, busy := false, pend := none })

/-- 40_arith_kernel.md R88: a successful result fits with no truncation. -/
def Obligations.ResultsNeedNoTruncation : Prop :=
  ∀ (s : State) (p : Pending), s.pend = some p →
    (∃ t, exec .gcd s = .next t ∧ t.r ≤ max p.a p.b) ∧
    (∃ t, exec .modinv s = .next t ∧ (t.errcode = 0#8 → t.r < p.m)) ∧
    (∃ t, exec .modpow s = .next t ∧ (t.errcode = 0#8 → t.r < p.m)) ∧
    (p.Fits s.cfg.width → s.r < 2 ^ s.cfg.width → ∀ i t, exec i s = .next t → t.r < 2 ^ s.cfg.width)

/-- 40_arith_kernel.md R90: two MODPOW commands with a keypair from distinct primes p, q, both different from 31,
return every v in [0, n); with p = q = 2 (V-RT3) the value 2 comes back as 64. The block does not check the key. -/
def Obligations.ScalarCipherRoundTrip : Prop :=
  (∀ p q e d v : Nat, p.Prime → q.Prime → p ≠ q → p ≠ 31 → q ≠ 31 →
    e * d % ((p - 1) * (q - 1) * 30) = 1 → v < p * q * 31 →
    ∀ (s s' : State) (x x' : Pending),
      s.pend = some x → x.a = v → x.e = e → x.m = p * q * 31 →
      ∃ t, exec .modpow s = .next t ∧ t.errcode = 0#8 ∧
        (s'.pend = some x' → x'.a = t.r → x'.e = d → x'.m = p * q * 31 →
          ∃ t', exec .modpow s' = .next t' ∧ t'.errcode = 0#8 ∧ t'.r = v)) ∧
  (∀ (s s' : State) (x x' : Pending),
      s.pend = some x → x.a = 2 → x.e = 7 → x.m = 124 →
      s'.pend = some x' → x'.a = 4 → x'.e = 13 → x'.m = 124 →
      (∃ t, exec .modpow s = .next t ∧ t.r = 4) ∧ ∃ t', exec .modpow s' = .next t' ∧ t'.r = 64)

/-! ### The mapper -/

/-- 41_element_mapper.md R92: MAP's two checks, and its effect on every element. Everything but the first LEN'
elements and the completion's status is unchanged, byte by byte. -/
def Obligations.MapCompletesWithThePowers : Prop :=
  decode 0x00000004#32 = .legal .map ∧
  ∀ (s : State) (p : Pending), s.cfg.valid → s.pend = some p → p.Fits s.cfg.width →
    (p.m = 0 →
      exec .map s = .next { s with errcode := 2#8, err := true, done := true, busy := false, pend := none }) ∧
    (p.m ≠ 0 → s.cfg.depth < p.len.toNat →
      exec .map s = .next { s with errcode := 4#8, err := true, done := true, busy := false, pend := none }) ∧
    (p.m ≠ 0 → p.len.toNat ≤ s.cfg.depth →
      ∃ mem : Memory,
        exec .map s = .next { s with
          elem := mem, errcode := 0#8, err := false, done := true, busy := false, pend := none } ∧
        (∀ i v, i < p.len.toNat → readElem s.cfg.nw s.elem i = some v →
          readElem s.cfg.nw mem i = some (v ^ p.e % p.m)) ∧
        (∀ i j, i < p.len.toNat → readElem s.cfg.nw s.elem i = none → j < s.cfg.nw →
          readWord mem (elemOff (i * s.cfg.nw + j)) = none) ∧
        (∀ q, q < elemBase ∨ elemOff (p.len.toNat * s.cfg.nw) ≤ q → readByte mem q = readByte s.elem q))

/-- 41_element_mapper.md R93: the order of MAP's errors, an illegal word before both; a failed MAP changes no
element; and no element's value makes MAP fail. -/
def Obligations.MapErrorOrder : Prop :=
  ∀ (s : State) (p : Pending), s.pend = some p →
    (∀ why, decode p.cmd = .illegal why → ∃ t, engineComplete s = .next t ∧ t.errcode = 3#8 ∧ t.elem = s.elem) ∧
    (decode p.cmd = .legal .map → p.m = 0 → ∃ t, engineComplete s = .next t ∧ t.errcode = 2#8 ∧ t.elem = s.elem) ∧
    (decode p.cmd = .legal .map → p.m ≠ 0 → s.cfg.depth < p.len.toNat →
      ∃ t, engineComplete s = .next t ∧ t.errcode = 4#8 ∧ t.elem = s.elem) ∧
    (decode p.cmd = .legal .map → p.m ≠ 0 → p.len.toNat ≤ s.cfg.depth →
      ∃ t, engineComplete s = .next t ∧ t.errcode = 0#8)

/-- 41_element_mapper.md R94: MAP of an empty sequence completes with code 0 and writes no element. -/
def Obligations.MapOfAnEmptySequence : Prop :=
  ∀ (s : State) (p : Pending), s.pend = some p → p.len = 0#32 → 1 ≤ p.m →
    exec .map s = .next { s with errcode := 0#8, err := false, done := true, busy := false, pend := none }

/-- Lanes are independent (41_element_mapper.md R91): two blocks that differ in everything but the configuration, the
command and element `i` agree on element `i` after MAP, wherever `i` lies, in all its words. -/
def Obligations.MapLanesAreIndependent : Prop :=
  ∀ (s s' : State) (p p' : Pending) (i : Nat), s'.cfg = s.cfg → s.pend = some p → s'.pend = some p' →
    p'.e = p.e → p'.m = p.m → p'.len = p.len →
    (∀ j, j < s.cfg.nw →
      readWord s.elem (elemOff (i * s.cfg.nw + j)) = readWord s'.elem (elemOff (i * s.cfg.nw + j))) →
    ∃ t t', exec .map s = .next t ∧ exec .map s' = .next t' ∧
      ∀ j, j < s.cfg.nw →
        readWord t.elem (elemOff (i * s.cfg.nw + j)) = readWord t'.elem (elemOff (i * s.cfg.nw + j))

/-- The sequence round trip (41_element_mapper.md R97) as two MAP commands: with a keypair of R90, every element comes
back reduced modulo n, so an element below n comes back as it was. -/
def Obligations.SequenceCipherRoundTrip : Prop :=
  ∀ (p q e d : Nat), p.Prime → q.Prime → p ≠ q → p ≠ 31 → q ≠ 31 →
    e * d % ((p - 1) * (q - 1) * 30) = 1 →
    ∀ (s : State) (x : Pending), s.cfg.valid → s.pend = some x → x.Fits s.cfg.width → x.e = e → x.m = p * q * 31 →
      x.len.toNat ≤ s.cfg.depth →
      ∃ t, exec .map s = .next t ∧ t.errcode = 0#8 ∧
        ∀ (s' : State) (x' : Pending), s'.cfg = s.cfg → s'.elem = t.elem → s'.pend = some x' → x'.e = d →
          x'.m = x.m → x'.len = x.len →
          ∃ t', exec .map s' = .next t' ∧ t'.errcode = 0#8 ∧
            ∀ i v, i < x.len.toNat → readElem s.cfg.nw s.elem i = some v →
              readElem s.cfg.nw t'.elem i = some (v % (p * q * 31)) ∧
              (v < p * q * 31 → readElem s.cfg.nw t'.elem i = some v)

/-! ### Completion and errors -/

/-- 60_exceptions.md R106: which code a completion reports, in this order. -/
def Obligations.ErrorCodePriority : Prop :=
  ∀ (s : State) (p : Pending), s.pend = some p →
    ∃ t, engineComplete s = .next t ∧
      (∀ why, decode p.cmd = .illegal why → t.errcode = 3#8) ∧
      (decode p.cmd = .legal .gcd → t.errcode = 0#8) ∧
      (decode p.cmd = .legal .modinv →
        t.errcode = if Nat.gcd p.a p.m ≠ 1 then 1#8 else if p.m = 0 then 2#8 else 0#8) ∧
      (decode p.cmd = .legal .modpow → t.errcode = if p.m = 0 then 2#8 else 0#8) ∧
      (decode p.cmd = .legal .map →
        t.errcode = if p.m = 0 then 2#8 else if s.cfg.depth < p.len.toNat then 4#8 else 0#8)

/-- What every completion does and leaves alone (60_exceptions.md R99): ERRCODE holds the code, ERR says whether it is
not 0, DONE is 1, BUSY 0, PEND none; OVR, IE, LEN, A, B, E, M, the configuration and the host are unchanged. R changes only
at a success of GCD, MODINV or MODPOW; no byte of the element buffer changes but at a success of MAP, and then none outside
the first LEN' elements. -/
def Obligations.EveryCompletionSetsTheStatus : Prop :=
  ∀ (s : State) (p : Pending), s.pend = some p →
    ∃ t, engineComplete s = .next t ∧
      t = { s with
        r := t.r, elem := t.elem, errcode := t.errcode,
        err := decide (t.errcode ≠ 0#8), done := true, busy := false, pend := none } ∧
      t.errcode.toNat ≤ 4 ∧
      (t.r ≠ s.r → t.elem = s.elem) ∧
      (t.errcode ≠ 0#8 ∨ decode p.cmd ∉ [.legal .gcd, .legal .modinv, .legal .modpow] → t.r = s.r) ∧
      (t.errcode ≠ 0#8 ∨ decode p.cmd ≠ .legal .map → t.elem = s.elem) ∧
      (∀ q, q < elemBase ∨ elemOff (p.len.toNat * s.cfg.nw) ≤ q → readByte t.elem q = readByte s.elem q)

/-- 60_exceptions.md R100: a failed command has no effect but its code and the status; the next command is accepted at
once; and the same command with the same operands fails the same way, whatever else has changed. -/
def Obligations.FailedCommandLeavesOnlyItsCode : Prop :=
  ∀ (s : State) (p : Pending), s.pend = some p →
    ∃ t, engineComplete s = .next t ∧
      (t.errcode ≠ 0#8 →
        t = { s with errcode := t.errcode, err := true, done := true, busy := false, pend := none } ∧
        (∀ v : Word, (t.hostWrite 0x000010 v).pend =
          some { cmd := v, a := t.a, b := t.b, e := t.e, m := t.m, len := t.len }) ∧
        ∀ u : State, u.cfg = s.cfg → u.pend = some p →
          ∃ t', engineComplete u = .next t' ∧ t'.errcode = t.errcode ∧ t'.r = u.r ∧ t'.elem = u.elem)

/-- A completion computes only from PEND and ELEM (10_state.md R34): two blocks of one configuration that differ in
everything else report the same code, leave the same elements, and write the same R or none. -/
def Obligations.CompletionComputesOnlyFromPendAndElem : Prop :=
  ∀ s s' : State, s'.cfg = s.cfg → s'.pend = s.pend → s'.elem = s.elem → s.pend ≠ none →
    ∃ t t', engineComplete s = .next t ∧ engineComplete s' = .next t' ∧
      t'.errcode = t.errcode ∧ t'.err = t.err ∧ t'.elem = t.elem ∧
      (t'.r = t.r ∨ (t.r = s.r ∧ t'.r = s'.r))

/-- No host line disturbs the command in flight (10_state.md R34, 70_reset_and_hazards.md R130): whatever the host
does while BUSY = 1, PEND, ELEM, R, BUSY, DONE, ERR and ERRCODE stay. -/
def Obligations.HostCannotDisturbTheCommandInFlight : Prop :=
  ∀ (s t : State) (line : Line), s.busy = true → s.done = false → s.err = false → hostLine line s = .next t →
    t.pend = s.pend ∧ t.elem = s.elem ∧ t.r = s.r ∧ t.busy = true ∧ t.done = false ∧ t.err = false ∧
    t.errcode = s.errcode ∧ t.cfg = s.cfg

/-- Every accepted command completes (00_scope.md R7, 60_exceptions.md R99): at the latest one step after the given order
of events is used up, PEND is none, with DONE = 1 unless that order holds a reset; or before that, in a step of its own, the
host is refused one of its lines. Two choices of the model carry it: the default order after the end of the order given,
log 6; and that a turn of the host after `halt` or past its last line passes and does not end the run, log 7. -/
def Obligations.AcceptedCommandCompletes : Prop :=
  ∀ s : State, s.pend ≠ none →
    (∃ k t, k ≤ s.sched.length + 1 ∧ Sys2Proof.core.run k s = .next t ∧ t.pend = none ∧
      (t.done = true ∨ .reset ∈ s.sched)) ∨
    (∃ n u line why, n < s.sched.length ∧ Sys2Proof.core.run n s = .next u ∧ s.sched[n]? = some .host ∧
      nextMover u = .host ∧ u.host.halted = false ∧ u.host.prog[u.host.pos]? = some line ∧
      hostLine line u.popMove = .refused why ∧ step u = .refused why)

/-! ### Who may change what -/

/-- 10_state.md R16, over every step: R changes only at a reset, or at the successful completion of GCD, MODINV or
MODPOW. -/
def Obligations.ResultRegisterChangesOnlyAtSuccess : Prop :=
  ∀ s t : State, step s = .next t → t.r ≠ s.r →
    nextMover s = .reset ∨
    (nextMover s = .engine ∧ t.errcode = 0#8 ∧
      ∃ p, s.pend = some p ∧ decode p.cmd ∈ [.legal .gcd, .legal .modinv, .legal .modpow])

/-- 10_state.md R15: an operand register changes only at a reset or by a host write of one of its words. -/
def Obligations.OperandsChangeOnlyByHostWriteOrReset : Prop :=
  ∀ (s t : State) (x : Operand), step s = .next t → t.operand x ≠ s.operand x →
    nextMover s = .reset ∨
    (nextMover s = .host ∧ ∃ off bytes e j,
      s.host.prog[s.host.pos]? = some (.wr off bytes e) ∧ off = offOperand x + 4 * j ∧ j < s.cfg.nw)

/-- 10_state.md R27: ERRCODE changes only at a completion and at a reset; acceptance leaves it; it reads zero-extended
and ignores writes. -/
def Obligations.ErrcodeChangesOnlyAtCompletionOrReset : Prop :=
  (∀ s t : State, step s = .next t → t.errcode ≠ s.errcode →
    nextMover s = .reset ∨ (nextMover s = .engine ∧ s.pend ≠ none ∧ t.done = true)) ∧
  (∀ (s : State) (v : Word), (s.hostWrite 0x000010 v).errcode = s.errcode ∧ s.hostWrite 0x000014 v = s ∧
    s.hostRead 0x000014 = (BitVec.ofNat 32 s.errcode.toNat, s)) ∧
  (∀ c : Params, (State.resetWith c).errcode = 0#8)

/-- 10_state.md R23, R24, over every step: DONE rises only at a completion, and every completion sets it; DONE falls
only at an acceptance, at a write of STATUS with bit 1, or at a reset. ERR rises only at a completion with a code that is
not 0, and falls only at a completion with code 0, an acceptance, a write of STATUS with bit 2, or a reset. -/
def Obligations.DoneAndErrChangeOnlyAsStated : Prop :=
  (∀ s t : State, step s = .next t →
    (s.done = false → t.done = true → nextMover s = .engine ∧ s.pend ≠ none) ∧
    (nextMover s = .engine → s.pend ≠ none → t.done = true ∧ t.err = decide (t.errcode ≠ 0#8)) ∧
    (s.err = false → t.err = true → nextMover s = .engine ∧ s.pend ≠ none ∧ t.errcode ≠ 0#8) ∧
    (s.done = true → t.done = false → nextMover s = .reset ∨
      (nextMover s = .host ∧ ∃ off bytes e, s.host.prog[s.host.pos]? = some (.wr off bytes e) ∧
        ((off = 0x000010 ∧ s.busy = false ∧ t.busy = true) ∨
         (off = 0x00000C ∧ (busValue (e.eval s.host)).getLsbD 1 = true)))) ∧
    (s.err = true → t.err = false → nextMover s = .reset ∨
      (nextMover s = .engine ∧ s.pend ≠ none ∧ t.errcode = 0#8) ∨
      (nextMover s = .host ∧ ∃ off bytes e, s.host.prog[s.host.pos]? = some (.wr off bytes e) ∧
        ((off = 0x000010 ∧ s.busy = false ∧ t.busy = true) ∨
         (off = 0x00000C ∧ (busValue (e.eval s.host)).getLsbD 2 = true))))) ∧
  ∀ (s : State) (v : Word),
    (s.busy = false → (s.hostWrite 0x000010 v).done = false ∧ (s.hostWrite 0x000010 v).err = false) ∧
    (s.hostWrite 0x00000C v).done = (s.done && !v.getLsbD 1) ∧ (s.hostWrite 0x00000C v).err = (s.err && !v.getLsbD 2) ∧
    s.resetBlock.done = false ∧ s.resetBlock.err = false

/-- 10_state.md R25: OVR is set by a host write dropped because BUSY = 1, to CMD or to the element buffer, and by
nothing else; the engine never changes it; it is cleared only by a write of STATUS with bit 3 and by a reset. -/
def Obligations.OverrunChangesOnlyAsStated : Prop :=
  (∀ s t : State, step s = .next t →
    (s.ovr = false → t.ovr = true →
      nextMover s = .host ∧ s.busy = true ∧ ∃ off bytes e, s.host.prog[s.host.pos]? = some (.wr off bytes e) ∧
        (off = 0x000010 ∨ ∃ k, k < s.cfg.depth * s.cfg.nw ∧ off = 0x100000 + 4 * k)) ∧
    (s.ovr = true → t.ovr = false →
      nextMover s = .reset ∨
      (nextMover s = .host ∧ ∃ bytes e, s.host.prog[s.host.pos]? = some (.wr 0x00000C bytes e) ∧
        (busValue (e.eval s.host)).getLsbD 3 = true))) ∧
  (∀ (s : State) (v : Word), s.busy = true → s.hostWrite 0x000010 v = { s with ovr := true }) ∧
  (∀ (s : State) (k : Nat) (v : Word), s.busy = true → k < s.cfg.depth * s.cfg.nw →
    s.hostWrite (0x100000 + 4 * k) v = { s with ovr := true }) ∧
  ∀ (s : State) (v : Word),
    (s.hostWrite 0x00000C v).ovr = (s.ovr && !v.getLsbD 3) ∧ s.resetBlock.ovr = false ∧
    (s.busy = false → (s.hostWrite 0x000010 v).ovr = s.ovr) ∧
    (s.pend ≠ none → ∃ t, engineComplete s = .next t ∧ t.ovr = s.ovr)

/-- 10_state.md R31: a byte of the element buffer keeps its value until the host writes its word while BUSY = 0, a
successful MAP writes its element, or a reset. -/
def Obligations.ElementBufferRetention : Prop :=
  ∀ (s t : State) (q : Nat), step s = .next t → readByte t.elem q ≠ readByte s.elem q →
    nextMover s = .reset ∨
    (nextMover s = .engine ∧ t.errcode = 0#8 ∧ ∃ p, s.pend = some p ∧ decode p.cmd = .legal .map ∧
      elemBase ≤ q ∧ q < elemOff (p.len.toNat * s.cfg.nw)) ∨
    (nextMover s = .host ∧ s.busy = false ∧ ∃ off bytes e, s.host.prog[s.host.pos]? = some (.wr off bytes e) ∧
      off % 4 = 0 ∧ off ≤ q ∧ q < off + 4 ∧ off < 0x100000 + 4 * (s.cfg.depth * s.cfg.nw))

/-- The engine never changes IE, LEN or the host (60_exceptions.md R99), and no step changes the configuration, which is
constant (00_scope.md R4 to R6, 10_state.md R20). IE and LEN change only at a reset or by a host write of their own register
(10_state.md R17, R21). No step changes the host's program: that it is loaded from outside and by no step is the model's
choice, log 8, and that a reset keeps it is the model's inference, log 17. -/
def Obligations.ControlRegistersChangeOnlyByHostWriteOrReset : Prop :=
  ∀ s t : State, step s = .next t →
    t.cfg = s.cfg ∧ t.host.prog = s.host.prog ∧ (nextMover s = .engine → t.host = s.host) ∧
    (t.ie ≠ s.ie → nextMover s = .reset ∨
      (nextMover s = .host ∧ ∃ bytes e, s.host.prog[s.host.pos]? = some (.wr 0x000008 bytes e))) ∧
    (t.len ≠ s.len → nextMover s = .reset ∨
      (nextMover s = .host ∧ ∃ bytes e, s.host.prog[s.host.pos]? = some (.wr 0x000018 bytes e)))

/-- The block raises no faults (20_memory.md R57, 60_exceptions.md R103, R108): a step of a machine each of whose host
lines is well-formed answers a next state, or the host tried to load a value that does not fit, which has no meaning
(30_encoding.md R77). No step ever faults, whatever the program. Choices and inferences of the model in it: a turn of the
engine with no command in flight, where 10_state.md R36 gives it no step, and a turn of the host after `halt` or past its
last line answer a next state, log 7; a label declared twice stops no run, since a goto takes the first, log 14; the line
`fits` makes R77's check, log 16; no step but a load from outside, log 8, and no reset, log 17, changes the program; and a
line runs on with an open value where the spec gives none: an unspecified element read, log 4, an unassigned variable,
log 11, `div`, `mod`, `>>` or `&` outside the ranges the spec gives, log 12. -/
def Obligations.NothingStopsAWellFormedProgram : Prop :=
  (∀ (s : State) (f : Fault), step s ≠ .fault f) ∧
  ∀ s : State, s.host.prog.all (Line.wellFormed (labelsOf s.host.prog)) = true →
    (∃ t, step s = .next t ∧ t.host.prog = s.host.prog) ∨
    (step s = .refused .valueDoesNotFit ∧ nextMover s = .host ∧ s.host.halted = false ∧
      ∃ e, s.host.prog[s.host.pos]? = some (.fits e) ∧
        ¬ (0 ≤ e.eval s.host ∧ e.eval s.host < 2 ^ s.cfg.width))

/-! ### The register window -/

/-- 20_memory.md R44: a transaction that is misaligned or not 32 bits wide is refused. -/
def Obligations.MisalignedOrNarrowTransactionIsRefused : Prop :=
  ∀ (s : State) (off bytes x : Nat) (e : Expr), off % 4 ≠ 0 ∨ bytes ≠ 4 →
    (∃ why, hostLine (.rd x off bytes) s = .refused why) ∧ ∃ why, hostLine (.wr off bytes e) s = .refused why

/-- An aligned 32-bit transaction at or above offset 0x200000 is refused, a read as a write: such offsets "are not
decoded by the block and belong to the platform" (20_memory.md R41), and 93_implementation_defined.md U10 has a model refuse
them. One below 0x200000 answers a next state; that it does so with an open value, for an unspecified element read, log 4,
and for a `wr` of an unassigned variable, log 11, or of an operation outside the ranges the spec gives or a negative value,
log 12, is the model's choice. -/
def Obligations.TransactionOutsideTheWindowIsRefused : Prop :=
  ∀ (s : State) (off x : Nat) (e : Expr), off % 4 = 0 →
    (0x200000 ≤ off →
      hostLine (.rd x off 4) s = .refused .outsideWindow ∧ hostLine (.wr off 4 e) s = .refused .outsideWindow) ∧
    (off < 0x200000 →
      (∃ t, hostLine (.rd x off 4) s = .next t) ∧ ∃ t, hostLine (.wr off 4 e) s = .next t)

/-- 20_memory.md R50: the complete read function; an unspecified read promises no value; no read changes any state of
the block. -/
def Obligations.ReadFunctionOfTheWindow : Prop :=
  ∀ s : State, s.cfg.valid →
    s.hostRead 0x000000 = (0x4D455850#32, s) ∧
    s.hostRead 0x000004 = (BitVec.ofNat 32 (s.cfg.depth * 65536 + s.cfg.nw), s) ∧
    s.hostRead 0x000008 = (BitVec.ofNat 32 s.ie.toNat, s) ∧
    s.hostRead 0x00000C =
      (BitVec.ofNat 32 (s.ovr.toNat * 8 + s.err.toNat * 4 + s.done.toNat * 2 + s.busy.toNat), s) ∧
    s.hostRead 0x000010 = (0#32, s) ∧
    s.hostRead 0x000014 = (BitVec.ofNat 32 s.errcode.toNat, s) ∧
    s.hostRead 0x000018 = (s.len, s) ∧
    (∀ j, j < s.cfg.nw →
      s.hostRead (0x001000 + 4 * j) = (BitVec.ofNat 32 (s.a / 2 ^ (32 * j)), s) ∧
      s.hostRead (0x002000 + 4 * j) = (BitVec.ofNat 32 (s.b / 2 ^ (32 * j)), s) ∧
      s.hostRead (0x003000 + 4 * j) = (BitVec.ofNat 32 (s.e / 2 ^ (32 * j)), s) ∧
      s.hostRead (0x004000 + 4 * j) = (BitVec.ofNat 32 (s.m / 2 ^ (32 * j)), s) ∧
      s.hostRead (0x005000 + 4 * j) = (BitVec.ofNat 32 (s.r / 2 ^ (32 * j)), s)) ∧
    (∀ k w, k < s.cfg.depth * s.cfg.nw → s.busy = false → readWord s.elem (elemOff k) = some w →
      s.hostRead (0x100000 + 4 * k) = (w, s)) ∧
    (∀ j, s.cfg.nw ≤ j → j < 1024 → ∀ x, 1 ≤ x → x ≤ 5 → s.hostRead (x * 0x1000 + 4 * j) = (0#32, s)) ∧
    (∀ k, s.cfg.depth * s.cfg.nw ≤ k → k < 262144 → s.hostRead (0x100000 + 4 * k) = (0#32, s)) ∧
    (∀ off, off % 4 = 0 → (0x00001C ≤ off ∧ off ≤ 0x000FFF) ∨ (0x006000 ≤ off ∧ off ≤ 0x0FFFFF) →
      s.hostRead off = (0#32, s)) ∧
    (∀ off, ∃ n, (s.hostRead off).2 = { s with draws := n })

/-- 20_memory.md R53: the complete write function. The word writes of the operand registers say the register's new
value by its words. -/
def Obligations.WriteFunctionOfTheWindow : Prop :=
  ∀ (s : State) (v : Word), s.cfg.valid →
    s.hostWrite 0x000008 v = { s with ie := v.getLsbD 0 } ∧
    s.hostWrite 0x00000C v =
      { s with done := s.done && !v.getLsbD 1, err := s.err && !v.getLsbD 2, ovr := s.ovr && !v.getLsbD 3 } ∧
    s.hostWrite 0x000010 v =
      (if s.busy then { s with ovr := true }
       else { s with
        pend := some { cmd := v, a := s.a, b := s.b, e := s.e, m := s.m, len := s.len },
        busy := true, done := false, err := false }) ∧
    s.hostWrite 0x000018 v = { s with len := v } ∧
    (∀ j, j < s.cfg.nw →
      (∃ n, s.hostWrite (0x001000 + 4 * j) v = { s with a := n } ∧ wordAt n j = v ∧
        ∀ k, k ≠ j → wordAt n k = wordAt s.a k) ∧
      (∃ n, s.hostWrite (0x002000 + 4 * j) v = { s with b := n } ∧ wordAt n j = v ∧
        ∀ k, k ≠ j → wordAt n k = wordAt s.b k) ∧
      (∃ n, s.hostWrite (0x003000 + 4 * j) v = { s with e := n } ∧ wordAt n j = v ∧
        ∀ k, k ≠ j → wordAt n k = wordAt s.e k) ∧
      (∃ n, s.hostWrite (0x004000 + 4 * j) v = { s with m := n } ∧ wordAt n j = v ∧
        ∀ k, k ≠ j → wordAt n k = wordAt s.m k) ∧
      s.hostWrite (0x005000 + 4 * j) v = s) ∧
    (∀ k, k < s.cfg.depth * s.cfg.nw →
      (s.busy = true → s.hostWrite (0x100000 + 4 * k) v = { s with ovr := true }) ∧
      (s.busy = false → s.hostWrite (0x100000 + 4 * k) v = { s with elem := writeWord s.elem (elemOff k) v })) ∧
    s.hostWrite 0x000000 v = s ∧ s.hostWrite 0x000004 v = s ∧ s.hostWrite 0x000014 v = s ∧
    (∀ off, off % 4 = 0 → off < 0x200000 →
      (0x00001C ≤ off ∧ off < 0x001000) ∨ (0x006000 ≤ off ∧ off < 0x100000) ∨
      (0x001000 ≤ off ∧ off < 0x006000 ∧ s.cfg.nw ≤ off % 0x1000 / 4) ∨
      (0x100000 + 4 * (s.cfg.depth * s.cfg.nw) ≤ off) →
      s.hostWrite off v = s)

/-- 20_memory.md R49: reserved offsets read 0 and ignore writes, read-only registers ignore writes, and the reserved bit
fields of CTRL, STATUS and ERRCODE read 0 and ignore writes. -/
def Obligations.ReservedPlacesReadZeroAndIgnoreWrites : Prop :=
  ∀ (s : State) (v : Word), s.cfg.valid →
    (∀ off, off % 4 = 0 → off < 0x200000 →
      (0x00001C ≤ off ∧ off < 0x001000) ∨ (0x006000 ≤ off ∧ off < 0x100000) ∨
      (0x001000 ≤ off ∧ off < 0x006000 ∧ s.cfg.nw ≤ off % 0x1000 / 4) ∨
      (0x100000 + 4 * (s.cfg.depth * s.cfg.nw) ≤ off) →
      s.hostRead off = (0#32, s) ∧ s.hostWrite off v = s) ∧
    s.hostWrite 0x000000 v = s ∧ s.hostWrite 0x000004 v = s ∧ s.hostWrite 0x000014 v = s ∧
    (∀ j, j < s.cfg.nw → s.hostWrite (0x005000 + 4 * j) v = s) ∧
    (s.hostRead 0x000008).1.toNat < 2 ∧ (s.hostRead 0x00000C).1.toNat < 16 ∧ (s.hostRead 0x000014).1.toNat < 256 ∧
    s.hostWrite 0x000008 v = s.hostWrite 0x000008 (v &&& 0x00000001#32) ∧
    s.hostWrite 0x00000C v = s.hostWrite 0x00000C (v &&& 0x0000000E#32)

/-- 10_state.md R35: acceptance. -/
def Obligations.CommandWriteIsAcceptedOrDropped : Prop :=
  ∀ (s : State) (v : Word),
    (s.busy = true → s.hostWrite 0x000010 v = { s with ovr := true }) ∧
    (s.busy = false → s.hostWrite 0x000010 v =
      { s with
        pend := some { cmd := v, a := s.a, b := s.b, e := s.e, m := s.m, len := s.len },
        busy := true, done := false, err := false })

/-- 10_state.md R26: a read of STATUS packs the four bits; a write clears by ones and does nothing else. -/
def Obligations.StatusReadsFourBitsAndClearsByOnes : Prop :=
  ∀ (s : State) (v : Word),
    s.hostRead 0x00000C =
      (BitVec.ofNat 32 (s.ovr.toNat * 8 + s.err.toNat * 4 + s.done.toNat * 2 + s.busy.toNat), s) ∧
    s.hostWrite 0x00000C v =
      { s with done := s.done && !v.getLsbD 1, err := s.err && !v.getLsbD 2, ovr := s.ovr && !v.getLsbD 3 }

/-- 20_memory.md R47: a word of an operand register reads back as written, its other words and everything else stay, also
while BUSY = 1; the command in flight does not see it. -/
def Obligations.OperandWordReadsBackAsWritten : Prop :=
  ∀ (s : State) (x : Operand) (j : Nat) (v : Word), s.cfg.valid → j < s.cfg.nw →
    s.hostRead (offOperand x + 4 * j) = (wordAt (s.operand x) j, s) ∧
    ∃ n t, t = s.hostWrite (offOperand x + 4 * j) v ∧ t = s.setOperand x n ∧ t.pend = s.pend ∧
      t.hostRead (offOperand x + 4 * j) = (v, t) ∧
      (∀ k, k < s.cfg.nw → k ≠ j →
        t.hostRead (offOperand x + 4 * k) = ((s.hostRead (offOperand x + 4 * k)).1, t)) ∧
      (∀ y, y ≠ x → t.operand y = s.operand y) ∧
      (s.operand x < 2 ^ s.cfg.width → t.operand x < 2 ^ s.cfg.width)

/-- 20_memory.md R48: R reads by words at any time, and ignores writes. -/
def Obligations.ResultRegisterIsReadOnly : Prop :=
  ∀ (s : State) (j : Nat) (v : Word), s.cfg.valid → j < s.cfg.nw →
    s.hostRead (0x005000 + 4 * j) = (BitVec.ofNat 32 (s.r / 2 ^ (32 * j)), s) ∧ s.hostWrite (0x005000 + 4 * j) v = s

/-- 20_memory.md R51, R52: an element word written while BUSY = 0 becomes written and reads back, and no other byte of
the buffer changes; while BUSY = 1 a write is dropped with OVR and a read changes no state of the block. -/
def Obligations.ElementWordsOverTheBus : Prop :=
  ∀ (s : State) (k : Nat) (v : Word), s.cfg.valid → k < s.cfg.depth * s.cfg.nw →
    (s.busy = false → ∃ mem, s.hostWrite (0x100000 + 4 * k) v = { s with elem := mem } ∧
      readWord mem (elemOff k) = some v ∧
      (∀ q, q < 0x100000 + 4 * k ∨ 0x100000 + 4 * k + 4 ≤ q → readByte mem q = readByte s.elem q) ∧
      State.hostRead { s with elem := mem } (0x100000 + 4 * k) = (v, { s with elem := mem })) ∧
    (s.busy = false → ∀ w, readWord s.elem (elemOff k) = some w → s.hostRead (0x100000 + 4 * k) = (w, s)) ∧
    (s.busy = true → s.hostWrite (0x100000 + 4 * k) v = { s with ovr := true }) ∧
    (∃ w n, s.hostRead (0x100000 + 4 * k) = (w, { s with draws := n }))

/-- 20_memory.md R55: every write but one to CMD is idempotent, and no read has a side effect; a write to CMD starts
one command while BUSY = 0 and sets OVR while BUSY = 1. -/
def Obligations.WritesAreIdempotentExceptToCmd : Prop :=
  ∀ (s : State) (v : Word), StateInv s →
    (∀ off, off ≠ 0x000010 → (s.hostWrite off v).hostWrite off v = s.hostWrite off v) ∧
    (∀ off, ∃ n, (s.hostRead off).2 = { s with draws := n }) ∧
    (s.busy = false → (s.hostWrite 0x000010 v).pend ≠ none ∧
      (s.hostWrite 0x000010 v).hostWrite 0x000010 v = { s.hostWrite 0x000010 v with ovr := true }) ∧
    (s.busy = true → s.hostWrite 0x000010 v = { s with ovr := true })

/-- 20_memory.md R45: the window seen as bytes is little-endian. -/
def Obligations.WindowIsLittleEndian : Prop :=
  ∀ (s : State) (off b : Nat) (w : Word), off % 4 = 0 → off < 0x200000 → b < 4 → s.wordInWindow off = some w →
    s.platformByte (s.cfg.base + off + b) = some (BitVec.ofNat 8 (w.toNat / 2 ^ (8 * b)))

/-- 20_memory.md R46: a W-bit value is the sum of its words, least significant first: the operand registers, R, and the
elements. -/
def Obligations.WideValuesAreLeastSignificantWordFirst : Prop :=
  ∀ s : State, StateInv s →
    (∀ x : Operand, s.operand x =
      ((List.range s.cfg.nw).map (fun j => (s.hostRead (offOperand x + 4 * j)).1.toNat * 2 ^ (32 * j))).sum) ∧
    s.r = ((List.range s.cfg.nw).map (fun j => (s.hostRead (0x005000 + 4 * j)).1.toNat * 2 ^ (32 * j))).sum ∧
    (∀ i v, readElem s.cfg.nw s.elem i = some v →
      v = ((List.range s.cfg.nw).map
        (fun j => ((readWord s.elem (elemOff (i * s.cfg.nw + j))).getD 0#32).toNat * 2 ^ (32 * j))).sum)

/-- Completion is visible in STATUS (20_memory.md R59): in a state that meets the invariant, BUSY reads 0 exactly when no
command is in flight, and DONE reads 1 only then. -/
def Obligations.StatusReadShowsCompletion : Prop :=
  ∀ s : State, StateInv s →
    ((s.hostRead 0x00000C).1.getLsbD 0 = false ↔ s.pend = none) ∧
    ((s.hostRead 0x00000C).1.getLsbD 1 = true → s.pend = none)

/-- 10_state.md R32 and 60_exceptions.md R104: irq = IE and DONE, a level: asserted by every completion while IE = 1,
masked while IE = 0, deasserted by a write of STATUS with bit 1, by the next acceptance, by reset, and by clearing IE, which
leaves DONE; a dropped write does not change it. -/
def Obligations.InterruptIsALevelOfIeAndDone : Prop :=
  ∀ s : State,
    (s.irq = (s.ie && s.done)) ∧
    (s.pend ≠ none → ∃ t, engineComplete s = .next t ∧ t.irq = s.ie ∧ t.done = true) ∧
    (∀ v : Word, v.getLsbD 1 = true → (s.hostWrite 0x00000C v).irq = false) ∧
    (∀ v : Word, s.busy = false → (s.hostWrite 0x000010 v).irq = false) ∧
    s.resetBlock.irq = false ∧
    (∀ v : Word, v.getLsbD 0 = false →
      (s.hostWrite 0x000008 v).irq = false ∧ (s.hostWrite 0x000008 v).done = s.done) ∧
    (∀ v : Word, s.busy = true → (s.hostWrite 0x000010 v).irq = s.irq) ∧
    (∀ (k : Nat) (v : Word), s.busy = true → k < s.cfg.depth * s.cfg.nw →
      (s.hostWrite (0x100000 + 4 * k) v).irq = s.irq)

/-! ### The host agent -/

/-- The host's lines (30_encoding.md R74): what each does, and that it answers a next state. The line `fits`, the side
condition of `ld` and `ldelem` (R77), makes no transaction, and is refused where the value is outside [0, 2^W). Choices of
the model: a label line takes a step of its own, log 10; an unspecified element read runs with an open value, log 4, as an
expression does that holds an unassigned variable, log 11, or an operation outside the ranges the spec gives, log 12; which
integers count as true, log 13. The line `fits` is its inference, log 16. -/
def Obligations.HostLinesActAsTheNotationSays : Prop :=
  ∀ s : State,
    (∀ l, hostLine (.label l) s = .next { s with host := { s.host with pos := s.host.pos + 1 } }) ∧
    (∀ x off, off % 4 = 0 → off < 0x200000 →
      ∃ t, hostLine (.rd x off 4) s = .next t ∧ t.host.pos = s.host.pos + 1 ∧
        t.host.getVar x = ((s.hostRead off).1.toNat : Int) ∧ (∀ y, y ≠ x → t.host.getVar y = s.host.getVar y) ∧
        t = { s with host := t.host, draws := t.draws }) ∧
    (∀ off e, off % 4 = 0 → off < 0x200000 → 0 ≤ e.eval s.host →
      hostLine (.wr off 4 e) s =
        .next (s.hostWrite off (BitVec.ofNat 32 ((e.eval s.host).toNat % 2 ^ 32))).advance) ∧
    (∀ x e, ∃ t, hostLine (.assign x e) s = .next t ∧ t.host.pos = s.host.pos + 1 ∧
        t.host.getVar x = e.eval s.host ∧ (∀ y, y ≠ x → t.host.getVar y = s.host.getVar y) ∧
        t = { s with host := t.host }) ∧
    (∀ e l, e.eval s.host ≠ 0 → hostLine (.branch e l) s = hostLine (.jump l) s) ∧
    (∀ e l, e.eval s.host = 0 →
      hostLine (.branch e l) s = .next { s with host := { s.host with pos := s.host.pos + 1 } }) ∧
    (∀ l, l ∈ labelsOf s.host.prog → ∃ pos, s.host.prog[pos]? = some (.label l) ∧
      hostLine (.jump l) s = .next { s with host := { s.host with pos := pos } }) ∧
    (∀ l, l ∉ labelsOf s.host.prog → hostLine (.jump l) s = .refused .undefinedLabel) ∧
    (∀ e, 0 ≤ e.eval s.host → e.eval s.host < 2 ^ s.cfg.width →
      hostLine (.fits e) s = .next { s with host := { s.host with pos := s.host.pos + 1 } }) ∧
    (∀ e, e.eval s.host < 0 ∨ 2 ^ s.cfg.width ≤ e.eval s.host →
      hostLine (.fits e) s = .refused .valueDoesNotFit) ∧
    hostLine .halt s = .next { s with host := { s.host with halted := true } }

/-- What the host's expressions compute (30_encoding.md R74, 00_scope.md R8), on unbounded integers: constants,
variables, sum, difference and product; the quotient and remainder of a non-negative integer by a positive one, by the
equation that fixes them; shift and bitwise and of non-negative integers. A comparison gives 1 where it holds and 0 where
it does not, and `and` and `or` take any integer but 0 as true: these values are the model's choice, log 13. Outside the
ranges stated the value is free, log 12, as is an unassigned variable's, log 11. -/
def Obligations.HostOperatorsComputeAsTheNotationSays : Prop :=
  ∀ (h : HostAgent) (l r : Expr) (x y : Int), l.eval h = x → r.eval h = y →
    (∀ z, (Expr.lit z).eval h = z) ∧
    (∀ v, (Expr.var v).eval h = h.getVar v) ∧
    (Expr.bin .add l r).eval h = x + y ∧
    (Expr.bin .sub l r).eval h = x - y ∧
    (Expr.bin .mul l r).eval h = x * y ∧
    (0 ≤ x → 1 ≤ y →
      x = (Expr.bin .div l r).eval h * y + (Expr.bin .mod l r).eval h ∧ 0 ≤ (Expr.bin .div l r).eval h ∧
      0 ≤ (Expr.bin .mod l r).eval h ∧ (Expr.bin .mod l r).eval h < y) ∧
    (Expr.bin .eq l r).eval h = (if x = y then 1 else 0) ∧
    (Expr.bin .ne l r).eval h = (if x = y then 0 else 1) ∧
    (Expr.bin .lt l r).eval h = (if x < y then 1 else 0) ∧
    (Expr.bin .le l r).eval h = (if x ≤ y then 1 else 0) ∧
    (Expr.bin .gt l r).eval h = (if y < x then 1 else 0) ∧
    (Expr.bin .ge l r).eval h = (if y ≤ x then 1 else 0) ∧
    (Expr.bin .land l r).eval h = (if x = 0 ∨ y = 0 then 0 else 1) ∧
    (Expr.bin .lor l r).eval h = (if x = 0 ∧ y = 0 then 0 else 1) ∧
    (∀ a k : Nat, x = a → y = k → (Expr.bin .shr l r).eval h = ((a / 2 ^ k : Nat) : Int)) ∧
    (∀ a b : Nat, x = a → y = b →
      ∃ c : Nat, (Expr.bin .band l r).eval h = c ∧ ∀ i, c.testBit i = (a.testBit i && b.testBit i))
end

