-- ==== Sys2Proof/Laws/Arith.lean ====
section
/-! SUPPORT. The engine's algorithms compute the functions of 00_scope.md R10: square and multiply is (b ^ e) mod m, and
the extended Euclidean algorithm is the unique inverse in [0, m). -/

namespace Sys2Proof.Machine

theorem powModLoop_eq (m : Nat) : ∀ fuel b e acc : Nat, e < 2 ^ fuel →
    powModLoop m fuel b e acc = acc * b ^ e % m := by
  intro fuel
  induction fuel with
  | zero =>
    intro b e acc he
    obtain rfl : e = 0 := by omega
    simp [powModLoop]
  | succ fuel ih =>
    intro b e acc he
    have hhalf : e / 2 < 2 ^ fuel := by rw [pow_succ] at he; omega
    unfold powModLoop
    split
    · next h => simp [h]
    · rw [ih _ _ _ hhalf]
      have hsq : (b * b % m) ^ (e / 2) ≡ (b * b) ^ (e / 2) [MOD m] := (Nat.mod_modEq _ _).pow _
      split
      · next hodd =>
        have hstep : b * (b * b) ^ (e / 2) = b ^ e := by
          rw [← pow_two, ← pow_mul, ← pow_succ']
          congr 1; omega
        calc acc * b % m * (b * b % m) ^ (e / 2) % m
            = acc * b * (b * b) ^ (e / 2) % m := (Nat.mod_modEq _ _).mul hsq
          _ = acc * b ^ e % m := by rw [mul_assoc, hstep]
      · next hodd =>
        have hstep : (b * b) ^ (e / 2) = b ^ e := by
          rw [← pow_two, ← pow_mul]
          congr 1; omega
        calc acc * (b * b % m) ^ (e / 2) % m
            = acc * (b * b) ^ (e / 2) % m := Nat.ModEq.mul_left _ hsq
          _ = acc * b ^ e % m := by rw [hstep]

/-- `powMod` is `modpow` of 00_scope.md R10, 0 ^ 0 = 1 included (40_arith_kernel.md R87). -/
theorem powMod_eq (b e m : Nat) : powMod b e m = b ^ e % m := by
  rw [powMod, powModLoop_eq m _ _ _ _ Nat.lt_log2_self, one_mul]
  exact (Nat.mod_modEq _ _).pow _

theorem powMod_lt (b e : Nat) {m : Nat} (hm : m ≠ 0) : powMod b e m < m := by
  rw [powMod_eq]; exact Nat.mod_lt _ (Nat.pos_of_ne_zero hm)

/-- The loop keeps `a * t ≡ r` for both pairs, so it ends with a coefficient of the greatest common divisor. -/
theorem inverseLoop_spec (a m : Nat) : ∀ (fuel r0 r1 : Nat) (t0 t1 : Int),
    r1 ≤ r0 → r0 * r1 < 2 ^ fuel →
    (a : ZMod m) * (t0 : ZMod m) = (r0 : ZMod m) → (a : ZMod m) * (t1 : ZMod m) = (r1 : ZMod m) →
    (a : ZMod m) * ((inverseLoop fuel r0 r1 t0 t1 : Int) : ZMod m) = (Nat.gcd r0 r1 : ZMod m) := by
  intro fuel
  induction fuel with
  | zero =>
    intro r0 r1 t0 t1 hle hprod h0 _
    obtain rfl : r1 = 0 := by
      rcases Nat.eq_zero_or_pos r1 with h | h
      · exact h
      · have := Nat.mul_pos (lt_of_lt_of_le h hle) h
        simp at hprod; omega
    simpa [inverseLoop] using h0
  | succ fuel ih =>
    intro r0 r1 t0 t1 hle hprod h0 h1
    unfold inverseLoop
    split
    · next hz => subst hz; simpa using h0
    · next hz =>
      have hpos : 0 < r1 := Nat.pos_of_ne_zero hz
      have hrem : r0 % r1 < r1 := Nat.mod_lt _ hpos
      have hdiv : 1 ≤ r0 / r1 := (Nat.one_le_div_iff hpos).2 hle
      have hsplit : r1 * (r0 / r1) + r0 % r1 = r0 := Nat.div_add_mod _ _
      have hdouble : 2 * (r0 % r1) ≤ r0 := by nlinarith
      have hsmaller : r1 * (r0 % r1) < 2 ^ fuel := by rw [pow_succ] at hprod; nlinarith
      have hgcd : Nat.gcd r1 (r0 % r1) = Nat.gcd r0 r1 := by
        rw [Nat.gcd_comm r0 r1, Nat.gcd_rec r1 r0, Nat.gcd_comm]
      rw [← hgcd]
      refine ih _ _ _ _ hrem.le hsmaller h1 ?_
      have hcast : (r1 : ZMod m) * ((r0 / r1 : Nat) : ZMod m) + ((r0 % r1 : Nat) : ZMod m) = (r0 : ZMod m) := by
        exact_mod_cast congrArg (Nat.cast (R := ZMod m)) hsplit
      rw [Int.cast_sub, Int.cast_mul, Int.cast_natCast]
      linear_combination h0 - ((r0 / r1 : Nat) : ZMod m) * h1 - hcast

theorem modInv_lt (a : Nat) {m : Nat} (hm : m ≠ 0) : modInv a m < m := by
  have hpos : (0 : Int) < m := by exact_mod_cast Nat.pos_of_ne_zero hm
  have := Int.emod_lt_of_pos (inverseLoop ((m * m).log2 + 1) m (a % m) 0 1) hpos
  have := Int.emod_nonneg (inverseLoop ((m * m).log2 + 1) m (a % m) 0 1) hpos.ne'
  unfold modInv; omega

/-- `modInv` is an inverse: the defining equation of `modinv` in 00_scope.md R10. -/
theorem mul_modInv {a m : Nat} (hm : m ≠ 0) (hgcd : Nat.gcd a m = 1) : a * modInv a m % m = 1 % m := by
  have hpos : (0 : Int) < m := by exact_mod_cast Nat.pos_of_ne_zero hm
  have hmod : a % m ≤ m := (Nat.mod_lt _ (Nat.pos_of_ne_zero hm)).le
  have hfuel : m * (a % m) < 2 ^ ((m * m).log2 + 1) :=
    lt_of_le_of_lt (Nat.mul_le_mul_left m hmod) Nat.lt_log2_self
  have hloop := inverseLoop_spec a m _ m (a % m) 0 1 hmod hfuel (by simp) (by simp)
  rw [Nat.gcd_comm, ← Nat.gcd_rec, Nat.gcd_comm, hgcd] at hloop
  have hcast : ((modInv a m : Nat) : ZMod m)
      = ((inverseLoop ((m * m).log2 + 1) m (a % m) 0 1 : Int) : ZMod m) := by
    unfold modInv
    have hnn := Int.emod_nonneg (inverseLoop ((m * m).log2 + 1) m (a % m) 0 1) hpos.ne'
    rw [← Int.cast_natCast, Int.toNat_of_nonneg hnn, ZMod.intCast_mod]
  have hz : ((a * modInv a m : Nat) : ZMod m) = ((1 : Nat) : ZMod m) := by
    rw [Nat.cast_mul, hcast, hloop]
  exact (ZMod.natCast_eq_natCast_iff _ _ _).1 hz

/-- The inverse in [0, m) is unique (00_scope.md R10). -/
theorem inverse_unique {a m x y : Nat} (hgcd : Nat.gcd a m = 1) (hx : x < m) (hy : y < m)
    (hax : a * x % m = 1 % m) (hay : a * y % m = 1 % m) : x = y := by
  have hxy : a * x ≡ a * y [MOD m] := hax.trans hay.symm
  have hcancel : x ≡ y [MOD m] := Nat.ModEq.cancel_left_of_coprime (by rwa [Nat.gcd_comm]) hxy
  rwa [Nat.ModEq, Nat.mod_eq_of_lt hx, Nat.mod_eq_of_lt hy] at hcancel

end Sys2Proof.Machine
end

