-- ==== Sys2Proof/Laws/Memory.lean ====
section
/-! SUPPORT. The laws of sparse data and of the element buffer: read after write, everything else unchanged, and the
canonical form, which every operation keeps and which makes equal contents equal data. -/

namespace Sys2Proof.Machine

section Sparse
variable {α : Type}

@[simp] theorem lookup_nil (key : Nat) : lookupKey ([] : List (Nat × α)) key = none := rfl

theorem lookup_insert (l : List (Nat × α)) (key : Nat) (x : α) (q : Nat) :
    lookupKey (insertKey l key x) q = if q = key then some x else lookupKey l q := by
  induction l with
  | nil => simp [insertKey, lookupKey]
  | cons p rest ih =>
    obtain ⟨k, v⟩ := p
    unfold insertKey
    split
    · by_cases hq : q = key <;> simp [lookupKey, hq]
    · split
      · next heq => subst heq; by_cases hq : q = key <;> simp [lookupKey, hq]
      · next hne =>
        by_cases hk : q = k
        · subst hk; simp [lookupKey, Ne.symm hne]
        · simp [lookupKey, hk, ih]

theorem lookup_remove (l : List (Nat × α)) (key q : Nat) :
    lookupKey (removeKey l key) q = if q = key then none else lookupKey l q := by
  induction l with
  | nil => simp [removeKey]
  | cons p rest ih =>
    obtain ⟨k, v⟩ := p
    unfold removeKey
    split
    · next heq => subst heq; rw [ih]; by_cases hq : q = key <;> simp [lookupKey, hq]
    · next hne =>
      by_cases hk : q = k
      · subst hk; simp [lookupKey, Ne.symm hne]
      · simp [lookupKey, hk, ih]

theorem lookup_eq_none_of_lt {l : List (Nat × α)} {key : Nat} (h : ∀ p ∈ l, key < p.1) : lookupKey l key = none := by
  induction l with
  | nil => rfl
  | cons p rest ih =>
    have hp : key ≠ p.1 := (h p (by simp)).ne
    simp only [lookupKey, hp, if_false]
    exact ih fun q hq => h q (by simp [hq])

theorem mem_insert {l : List (Nat × α)} {key : Nat} {x : α} {p : Nat × α} (h : p ∈ insertKey l key x) :
    p = (key, x) ∨ p ∈ l := by
  induction l with
  | nil => simpa [insertKey] using h
  | cons q rest ih =>
    obtain ⟨k, v⟩ := q
    unfold insertKey at h
    split at h
    · simpa using h
    · split at h
      · rcases List.mem_cons.1 h with h | h
        · exact .inl h
        · exact .inr (by simp [h])
      · rcases List.mem_cons.1 h with h | h
        · exact .inr (by simp [h])
        · rcases ih h with h | h
          · exact .inl h
          · exact .inr (by simp [h])

theorem mem_remove {l : List (Nat × α)} {key : Nat} {p : Nat × α} (h : p ∈ removeKey l key) : p ∈ l := by
  induction l with
  | nil => simp [removeKey] at h
  | cons q rest ih =>
    obtain ⟨k, v⟩ := q
    unfold removeKey at h
    split at h
    · exact List.mem_cons_of_mem _ (ih h)
    · rcases List.mem_cons.1 h with h | h
      · simp [h]
      · exact List.mem_cons_of_mem _ (ih h)

/-- Listing a value keeps the canonical form. -/
theorem insert_rises {l : List (Nat × α)} (h : KeysRise l) (key : Nat) (x : α) : KeysRise (insertKey l key x) := by
  induction l with
  | nil => simp [insertKey, KeysRise]
  | cons q rest ih =>
    obtain ⟨k, v⟩ := q
    obtain ⟨hk, hrest⟩ := List.pairwise_cons.1 h
    unfold insertKey
    split
    · next hlt =>
      refine List.pairwise_cons.2 ⟨?_, h⟩
      intro p hp
      rcases List.mem_cons.1 hp with rfl | hp
      · exact hlt
      · exact lt_trans hlt (hk p hp)
    · split
      · next heq => subst heq; exact List.pairwise_cons.2 ⟨hk, hrest⟩
      · next hge hne =>
        refine List.pairwise_cons.2 ⟨?_, ih hrest⟩
        intro p hp
        rcases mem_insert hp with rfl | hp
        · change k < key; omega
        · exact hk p hp

/-- Unlisting a key keeps the canonical form. -/
theorem remove_rises {l : List (Nat × α)} (h : KeysRise l) (key : Nat) : KeysRise (removeKey l key) := by
  induction l with
  | nil => simp [removeKey, KeysRise]
  | cons q rest ih =>
    obtain ⟨k, v⟩ := q
    obtain ⟨hk, hrest⟩ := List.pairwise_cons.1 h
    unfold removeKey
    split
    · exact ih hrest
    · exact List.pairwise_cons.2 ⟨fun p hp => hk p (mem_remove hp), ih hrest⟩

/-- In canonical form, equal contents are equal data. -/
theorem eq_of_lookup_eq {l l' : List (Nat × α)} (h : KeysRise l) (h' : KeysRise l')
    (heq : ∀ key, lookupKey l key = lookupKey l' key) : l = l' := by
  induction l generalizing l' with
  | nil =>
    cases l' with
    | nil => rfl
    | cons q rest => have := heq q.1; simp [lookupKey] at this
  | cons p rest ih =>
    obtain ⟨k, v⟩ := p
    obtain ⟨hk, hrest⟩ := List.pairwise_cons.1 h
    cases l' with
    | nil => have := heq k; simp [lookupKey] at this
    | cons q rest' =>
      obtain ⟨k', v'⟩ := q
      obtain ⟨hk', hrest'⟩ := List.pairwise_cons.1 h'
      have hkk : k = k' := by
        by_contra hne
        rcases Nat.lt_or_gt_of_ne hne with hlt | hgt
        · have hnone : lookupKey ((k', v') :: rest') k = none := by
            apply lookup_eq_none_of_lt
            intro p hp
            rcases List.mem_cons.1 hp with rfl | hp
            · exact hlt
            · exact lt_trans hlt (hk' p hp)
          have := heq k
          rw [hnone] at this; simp [lookupKey] at this
        · have hnone : lookupKey ((k, v) :: rest) k' = none := by
            apply lookup_eq_none_of_lt
            intro p hp
            rcases List.mem_cons.1 hp with rfl | hp
            · exact hgt
            · exact lt_trans hgt (hk p hp)
          have := heq k'
          rw [hnone] at this; simp [lookupKey] at this
      subst hkk
      have hv : v = v' := by have := heq k; simpa [lookupKey] using this
      subst hv
      congr 1
      refine ih hrest hrest' fun key => ?_
      by_cases hkey : key = k
      · subst hkey
        rw [lookup_eq_none_of_lt hk, lookup_eq_none_of_lt hk']
      · have := heq key
        simpa [lookupKey, hkey] using this

end Sparse

/-! ### Bytes and words -/

/-- A word is its four bytes (20_memory.md R45). -/
theorem wordOfBytes_byteOfWord (w : Word) :
    wordOfBytes (byteOfWord w 0) (byteOfWord w 1) (byteOfWord w 2) (byteOfWord w 3) = w := by
  apply BitVec.eq_of_toNat_eq
  simp only [wordOfBytes, byteOfWord, BitVec.toNat_append, BitVec.extractLsb'_toNat]
  have hw := w.isLt
  generalize w.toNat = n at hw ⊢
  simp only [Nat.shiftRight_eq_div_pow, Nat.shiftLeft_eq]
  rw [← Nat.shiftLeft_eq, ← Nat.shiftLeft_eq, ← Nat.shiftLeft_eq, ← Nat.shiftLeft_add_eq_or_of_lt (by omega),
    ← Nat.shiftLeft_add_eq_or_of_lt (by omega), ← Nat.shiftLeft_add_eq_or_of_lt (by omega)]
  simp only [Nat.shiftLeft_eq]
  omega

/-- Which bytes a word write changes, and to what. -/
theorem readByte_writeWord (mem : Memory) (off : Nat) (w : Word) (q : Nat) :
    readByte (writeWord mem off w) q =
      if off ≤ q ∧ q < off + 4 then some (byteOfWord w (q - off)) else readByte mem q := by
  simp only [readByte, writeWord, lookup_insert]
  by_cases h : off ≤ q ∧ q < off + 4
  · obtain ⟨d, rfl⟩ : ∃ d, q = off + d := ⟨q - off, by omega⟩
    have hd : d = 0 ∨ d = 1 ∨ d = 2 ∨ d = 3 := by omega
    rcases hd with rfl | rfl | rfl | rfl <;> simp
  · rw [if_neg h, if_neg (by omega), if_neg (by omega), if_neg (by omega), if_neg (by omega)]

/-- Which bytes an erasure changes. -/
theorem readByte_eraseWord (mem : Memory) (off q : Nat) :
    readByte (eraseWord mem off) q = if off ≤ q ∧ q < off + 4 then none else readByte mem q := by
  simp only [readByte, eraseWord, lookup_remove]
  by_cases h : off ≤ q ∧ q < off + 4
  · rw [if_pos h]
    by_cases h3 : q = off + 3
    · rw [if_pos h3]
    · rw [if_neg h3]
      by_cases h2 : q = off + 2
      · rw [if_pos h2]
      · rw [if_neg h2]
        by_cases h1 : q = off + 1
        · rw [if_pos h1]
        · rw [if_neg h1, if_pos (by omega)]
  · rw [if_neg h, if_neg (by omega), if_neg (by omega), if_neg (by omega), if_neg (by omega)]

/-- The word at an offset depends on its four bytes only. -/
theorem readWord_congr {mem mem' : Memory} {off : Nat}
    (h : ∀ q, off ≤ q → q < off + 4 → readByte mem q = readByte mem' q) : readWord mem off = readWord mem' off := by
  unfold readWord
  rw [h off (by omega) (by omega), h (off + 1) (by omega) (by omega), h (off + 2) (by omega) (by omega),
    h (off + 3) (by omega) (by omega)]

@[simp] theorem readWord_writeWord_self (mem : Memory) (off : Nat) (w : Word) :
    readWord (writeWord mem off w) off = some w := by
  have h : ∀ d, d < 4 → readByte (writeWord mem off w) (off + d) = some (byteOfWord w d) := by
    intro d hd
    rw [readByte_writeWord, if_pos (by omega)]; congr 2; omega
  have h0 := h 0 (by omega)
  rw [Nat.add_zero] at h0
  unfold readWord
  rw [h0, h 1 (by omega), h 2 (by omega), h 3 (by omega)]
  simp [wordOfBytes_byteOfWord]

theorem readWord_writeWord_other (mem : Memory) {off off' : Nat} (w : Word) (h : off' + 4 ≤ off ∨ off + 4 ≤ off') :
    readWord (writeWord mem off w) off' = readWord mem off' :=
  readWord_congr fun q _ _ => by rw [readByte_writeWord, if_neg (by omega)]

@[simp] theorem readWord_eraseWord_self (mem : Memory) (off : Nat) : readWord (eraseWord mem off) off = none := by
  have h : readByte (eraseWord mem off) off = none := by rw [readByte_eraseWord, if_pos (by omega)]
  unfold readWord; rw [h]

theorem readWord_eraseWord_other (mem : Memory) {off off' : Nat} (h : off' + 4 ≤ off ∨ off + 4 ≤ off') :
    readWord (eraseWord mem off) off' = readWord mem off' :=
  readWord_congr fun q _ _ => by rw [readByte_eraseWord, if_neg (by omega)]

theorem writeWord_wf {mem : Memory} (h : Memory.wf mem) (off : Nat) (w : Word) : Memory.wf (writeWord mem off w) :=
  insert_rises (insert_rises (insert_rises (insert_rises h _ _) _ _) _ _) _ _

theorem eraseWord_wf {mem : Memory} (h : Memory.wf mem) (off : Nat) : Memory.wf (eraseWord mem off) :=
  remove_rises (remove_rises (remove_rises (remove_rises h _) _) _) _

/-- Writing a word twice is writing it once, as data. -/
theorem writeWord_writeWord {mem : Memory} (h : Memory.wf mem) (off : Nat) (v w : Word) :
    writeWord (writeWord mem off v) off w = writeWord mem off w := by
  refine eq_of_lookup_eq (writeWord_wf (writeWord_wf h _ _) _ _) (writeWord_wf h _ _) fun q => ?_
  change readByte _ q = readByte _ q
  simp only [readByte_writeWord]
  split <;> rfl

/-! ### Runs of words -/

/-- Which bytes a run of word writes changes. -/
theorem readByte_writeWords_other {q : Nat} : ∀ (n k : Nat) (mem : Memory) (v : Nat),
    (q < elemOff k ∨ elemOff (k + n) ≤ q) → readByte (writeWords mem k n v) q = readByte mem q := by
  intro n
  induction n with
  | zero => intro k mem v _; rfl
  | succ n ih =>
    intro k mem v h
    unfold writeWords
    rw [ih (k + 1) _ _ (by simp only [elemOff] at *; omega), readByte_writeWord, if_neg]
    simp only [elemOff] at *; omega

theorem readByte_eraseWords_other {q : Nat} : ∀ (n k : Nat) (mem : Memory),
    (q < elemOff k ∨ elemOff (k + n) ≤ q) → readByte (eraseWords mem k n) q = readByte mem q := by
  intro n
  induction n with
  | zero => intro k mem _; rfl
  | succ n ih =>
    intro k mem h
    unfold eraseWords
    rw [ih (k + 1) _ (by simp only [elemOff] at *; omega), readByte_eraseWord, if_neg]
    simp only [elemOff] at *; omega

theorem readWord_writeWords_other {k' : Nat} (n k : Nat) (mem : Memory) (v : Nat) (h : k' < k ∨ k + n ≤ k') :
    readWord (writeWords mem k n v) (elemOff k') = readWord mem (elemOff k') :=
  readWord_congr fun q _ _ => readByte_writeWords_other n k mem v (by simp only [elemOff] at *; omega)

theorem readWord_eraseWords_other {k' : Nat} (n k : Nat) (mem : Memory) (h : k' < k ∨ k + n ≤ k') :
    readWord (eraseWords mem k n) (elemOff k') = readWord mem (elemOff k') :=
  readWord_congr fun q _ _ => readByte_eraseWords_other n k mem (by simp only [elemOff] at *; omega)

/-- The value of a run of words depends on its words only. -/
theorem readWords_congr {mem mem' : Memory} : ∀ n k : Nat,
    (∀ k', k ≤ k' → k' < k + n → readWord mem (elemOff k') = readWord mem' (elemOff k')) →
    readWords mem k n = readWords mem' k n := by
  intro n
  induction n with
  | zero => intro k _; rfl
  | succ n ih =>
    intro k h
    unfold readWords
    rw [h k (by omega) (by omega), ih (k + 1) fun k' h1 h2 => h k' (by omega) (by omega)]

/-- A value that fits reads back from the words it was written to (20_memory.md R46). -/
theorem readWords_writeWords_self : ∀ (n k : Nat) (mem : Memory) (v : Nat), v < 2 ^ (32 * n) →
    readWords (writeWords mem k n v) k n = some v := by
  intro n
  induction n with
  | zero => intro k mem v hv; simp at hv; simp [readWords, hv]
  | succ n ih =>
    intro k mem v hv
    have hhi : v / 2 ^ 32 < 2 ^ (32 * n) := by
      apply Nat.div_lt_of_lt_mul
      rwa [show 32 * (n + 1) = 32 + 32 * n by ring, pow_add] at hv
    unfold writeWords readWords
    rw [ih (k + 1) _ _ hhi, readWord_writeWords_other n (k + 1) _ _ (by omega), readWord_writeWord_self]
    simp only [BitVec.toNat_ofNat]
    congr 1; exact Nat.mod_add_div v (2 ^ 32)

/-- A run of words is defined exactly when each of them is written (10_state.md R30). -/
theorem readWords_isSome_iff (mem : Memory) : ∀ n k : Nat,
    (readWords mem k n).isSome ↔ ∀ j, j < n → (readWord mem (elemOff (k + j))).isSome := by
  intro n
  induction n with
  | zero => intro k; simp [readWords]
  | succ n ih =>
    intro k
    have hrec := ih (k + 1)
    unfold readWords
    constructor
    · intro h j hj
      cases hw : readWord mem (elemOff k) with
      | none => simp [hw] at h
      | some w =>
        cases j with
        | zero => simp [hw]
        | succ j =>
          have hhi : (readWords mem (k + 1) n).isSome := by
            cases hh : readWords mem (k + 1) n with
            | none => simp [hw, hh] at h
            | some _ => rfl
          have := hrec.1 hhi j (by omega)
          rwa [show k + (j + 1) = k + 1 + j by ring]
    · intro h
      have h0 := h 0 (by omega)
      have hhi := hrec.2 fun j hj => by
        have := h (j + 1) (by omega)
        rwa [show k + (j + 1) = k + 1 + j by ring] at this
      obtain ⟨w, hw⟩ := Option.isSome_iff_exists.1 h0
      obtain ⟨hi, hh⟩ := Option.isSome_iff_exists.1 hhi
      rw [Nat.add_zero] at hw
      simp [hw, hh]

/-- An erased run has no written word. -/
theorem readWord_eraseWords_self : ∀ (n k : Nat) (mem : Memory) (j : Nat), j < n →
    readWord (eraseWords mem k n) (elemOff (k + j)) = none := by
  intro n
  induction n with
  | zero => intro k mem j hj; omega
  | succ n ih =>
    intro k mem j hj
    unfold eraseWords
    cases j with
    | zero =>
      simp only [Nat.add_zero]
      rw [readWord_eraseWords_other n (k + 1) _ (by omega), readWord_eraseWord_self]
    | succ j =>
      have := ih (k + 1) (eraseWord mem (elemOff k)) j (by omega)
      rwa [show k + (j + 1) = k + 1 + j by ring]

theorem writeWords_wf : ∀ (n k : Nat) (mem : Memory) (v : Nat), Memory.wf mem → Memory.wf (writeWords mem k n v) := by
  intro n
  induction n with
  | zero => intro k mem v h; exact h
  | succ n ih => intro k mem v h; exact ih _ _ _ (writeWord_wf h _ _)

theorem eraseWords_wf : ∀ (n k : Nat) (mem : Memory), Memory.wf mem → Memory.wf (eraseWords mem k n) := by
  intro n
  induction n with
  | zero => intro k mem h; exact h
  | succ n ih => intro k mem h; exact ih _ _ (eraseWord_wf h _)

end Sys2Proof.Machine
end

