-- ==== Sys2Proof/Laws/Decode.lean ====
section
/-! SUPPORT. Decoding and encoding: a word is legal exactly when it is the word of its command (30_encoding.md R72, R73). -/

namespace Sys2Proof

@[simp] theorem decode_encode (i : Instr) : decode (encode i) = .legal i := by cases i <;> rfl

/-- A word is its two fields. -/
theorem word_fields (w : Word) : w.toNat = (opField w).toNat + 16 * (rsvdField w).toNat := by
  have hw := w.isLt
  simp only [opField, rsvdField, BitVec.extractLsb'_toNat, Nat.shiftRight_eq_div_pow]
  omega

/-- A word that decodes to a command is that command's word: no bit of the word is ignored. -/
theorem eq_encode_of_decode {w : Word} {i : Instr} (h : decode w = .legal i) : w = encode i := by
  unfold decode at h
  split at h
  · cases h
  · next hr =>
    have hr0 : rsvdField w = 0 := not_not.1 hr
    have hfield := word_fields w
    rw [hr0] at hfield
    apply BitVec.eq_of_toNat_eq
    split at h <;> cases h
    all_goals
      next hop => rw [hfield, hop]; rfl

/-- The decoder on bytes reads a command back from its bytes and leaves the rest. -/
theorem decodeBytes_encodeBytes (i : Instr) (rest : List Byte) :
    decodeBytes (encodeBytes i ++ rest) = (.legal i, rest) := by
  simp [encodeBytes, bytesOfWord, decodeBytes, Machine.wordOfBytes_byteOfWord]

/-- A word of the opcode table's width reads as `decode` says. -/
theorem decodeTableWord_eq (w : Word) :
    decodeTableWord 32 w.toNat = match decode w with
      | .legal i => some i
      | .illegal _ => none := by
  have hw : w.toNat % 2 ^ 32 = w.toNat := Nat.mod_eq_of_lt w.isLt
  unfold decodeTableWord
  rw [if_pos (le_refl _), hw, BitVec.ofNat_toNat, BitVec.setWidth_eq]
  cases hd : decode w <;> simp [bytesOfWord, decodeBytes, Machine.wordOfBytes_byteOfWord, hd]

end Sys2Proof
end

