-- ==== Sys2Proof/Laws/Mapper.lean ====
section
/-! SUPPORT. What MAP's lanes do to the element buffer, said once: element i < n becomes its power or stays undefined,
everything else is unchanged (41_element_mapper.md R91, R92). -/

namespace Sys2Proof.Machine

theorem elem_le (nw : Nat) {i i' : Nat} (h : i < i') : i * nw + nw ≤ i' * nw := by
  rw [← Nat.succ_mul]; exact Nat.mul_le_mul_right nw h

/-- One lane changes no byte outside its element. -/
theorem readByte_mapLane_other (nw e m : Nat) (mem : Memory) (i : Nat) {q : Nat}
    (h : q < elemOff (i * nw) ∨ elemOff (i * nw + nw) ≤ q) :
    readByte (mapLane nw e m mem i) q = readByte mem q := by
  unfold mapLane
  split
  · exact readByte_writeWords_other _ _ _ _ h
  · exact readByte_eraseWords_other _ _ _ h

theorem readWord_mapLane_other (nw e m : Nat) (mem : Memory) (i : Nat) {k : Nat}
    (h : k < i * nw ∨ i * nw + nw ≤ k) :
    readWord (mapLane nw e m mem i) (elemOff k) = readWord mem (elemOff k) :=
  readWord_congr fun q _ _ => readByte_mapLane_other nw e m mem i (by simp only [elemOff] at *; omega)

theorem readElem_mapLane_other (nw e m : Nat) (mem : Memory) {i i' : Nat} (h : i' ≠ i) :
    readElem nw (mapLane nw e m mem i) i' = readElem nw mem i' := by
  refine readWords_congr _ _ fun k h1 h2 => readWord_mapLane_other nw e m mem i ?_
  rcases Nat.lt_or_gt_of_ne h with hlt | hgt
  · have := elem_le nw hlt; omega
  · have := elem_le nw hgt; omega

/-- An undefined element has an unwritten word, and an erased element has no written one. -/
theorem readElem_eraseElem {nw : Nat} (hnw : 1 ≤ nw) (mem : Memory) (i : Nat) :
    readElem nw (eraseElem nw mem i) i = none := by
  by_contra hne
  have hsome : (readWords (eraseWords mem (i * nw) nw) (i * nw) nw).isSome :=
    Option.isSome_iff_ne_none.2 hne
  have := (readWords_isSome_iff _ _ _).1 hsome 0 (by omega)
  rw [readWord_eraseWords_self nw (i * nw) mem 0 (by omega)] at this
  simp at this

/-- The lane's own element: its power, or still undefined. -/
theorem readElem_mapLane_self {nw e m : Nat} (hnw : 1 ≤ nw) (hm : m ≠ 0) (hfit : m ≤ 2 ^ (32 * nw)) (mem : Memory)
    (i : Nat) : readElem nw (mapLane nw e m mem i) i = (readElem nw mem i).map (fun v => powMod v e m) := by
  unfold mapLane
  split
  · next v hv =>
    rw [hv]
    exact readWords_writeWords_self _ _ _ _ (lt_of_lt_of_le (powMod_lt v e hm) hfit)
  · next hv => rw [hv, readElem_eraseElem hnw]; rfl

/-- The words of an undefined element are all UNWRITTEN after its lane. -/
theorem readWord_mapLane_undefined {nw e m : Nat} (mem : Memory) {i j : Nat} (hundef : readElem nw mem i = none)
    (hj : j < nw) : readWord (mapLane nw e m mem i) (elemOff (i * nw + j)) = none := by
  unfold mapLane; rw [hundef]; exact readWord_eraseWords_self _ _ _ _ hj

theorem mapLane_wf {nw e m : Nat} {mem : Memory} (h : Memory.wf mem) (i : Nat) : Memory.wf (mapLane nw e m mem i) := by
  unfold mapLane; split
  · exact writeWords_wf _ _ _ _ h
  · exact eraseWords_wf _ _ _ h

/-! ### All lanes -/

/-- The lanes change no byte outside the first `n` elements. -/
theorem readByte_mapLanes_other (nw e m : Nat) (mem : Memory) {q : Nat} : ∀ n : Nat,
    (q < elemBase ∨ elemOff (n * nw) ≤ q) → readByte (mapLanes nw e m mem n) q = readByte mem q := by
  intro n
  induction n with
  | zero => intro _; rfl
  | succ n ih =>
    intro h
    have hn : (n + 1) * nw = n * nw + nw := Nat.succ_mul n nw
    unfold mapLanes
    rw [readByte_mapLane_other, ih]
    · rcases h with h | h
      · exact .inl h
      · rw [hn] at h; simp only [elemOff] at *; omega
    · rcases h with h | h
      · left; simp only [elemOff]; omega
      · rw [hn] at h; exact .inr h

/-- Elements from `n` on are unchanged. -/
theorem readElem_mapLanes_ge (nw e m : Nat) (mem : Memory) {i : Nat} : ∀ n : Nat, n ≤ i →
    readElem nw (mapLanes nw e m mem n) i = readElem nw mem i := by
  intro n
  induction n with
  | zero => intro _; rfl
  | succ n ih =>
    intro h
    unfold mapLanes
    rw [readElem_mapLane_other _ _ _ _ (by omega : i ≠ n), ih (by omega)]

/-- Elements below `n` become their powers, or stay undefined. -/
theorem readElem_mapLanes_lt {nw e m : Nat} (hnw : 1 ≤ nw) (hm : m ≠ 0) (hfit : m ≤ 2 ^ (32 * nw)) (mem : Memory)
    {i : Nat} : ∀ n : Nat, i < n →
    readElem nw (mapLanes nw e m mem n) i = (readElem nw mem i).map (fun v => powMod v e m) := by
  intro n
  induction n with
  | zero => intro h; omega
  | succ n ih =>
    intro h
    unfold mapLanes
    rcases Nat.lt_or_ge i n with hlt | hge
    · rw [readElem_mapLane_other _ _ _ _ (by omega : i ≠ n), ih hlt]
    · obtain rfl : i = n := by omega
      rw [readElem_mapLane_self hnw hm hfit, readElem_mapLanes_ge _ _ _ _ _ (le_refl i)]

/-- The words of an undefined element below `n` are all UNWRITTEN afterwards (10_state.md R30). -/
theorem readWord_mapLanes_undefined {nw e m : Nat} (mem : Memory) {i j : Nat} (hundef : readElem nw mem i = none)
    (hj : j < nw) : ∀ n : Nat, i < n → readWord (mapLanes nw e m mem n) (elemOff (i * nw + j)) = none := by
  intro n
  induction n with
  | zero => intro h; omega
  | succ n ih =>
    intro h
    unfold mapLanes
    rcases Nat.lt_or_ge i n with hlt | hge
    · have := elem_le nw hlt
      rw [readWord_mapLane_other _ _ _ _ _ (by omega), ih hlt]
    · obtain rfl : i = n := by omega
      exact readWord_mapLane_undefined _ (by rw [readElem_mapLanes_ge _ _ _ _ _ (le_refl i), hundef]) hj

theorem mapLanes_wf {nw e m : Nat} {mem : Memory} (h : Memory.wf mem) : ∀ n, Memory.wf (mapLanes nw e m mem n) := by
  intro n
  induction n with
  | zero => exact h
  | succ n ih => exact mapLane_wf ih n

/-! ### The element buffer stays inside its window and is written by whole words -/

theorem byte_in_word {q : Nat} (h : elemBase ≤ q) : ∃ k d, d < 4 ∧ q = elemOff k + d :=
  ⟨(q - elemBase) / 4, (q - elemBase) % 4, Nat.mod_lt _ (by omega), by unfold elemOff; omega⟩

theorem writeWord_whole {mem : Memory} (h : Memory.WholeWords mem) (k : Nat) (w : Word) :
    Memory.WholeWords (writeWord mem (elemOff k) w) := by
  intro k' d hd hs
  by_cases hk : k' = k
  · subst hk; simp
  · rw [readWord_writeWord_other _ _ (by simp only [elemOff]; omega)]
    rw [readByte_writeWord, if_neg (by simp only [elemOff]; omega)] at hs
    exact h k' d hd hs

theorem eraseWord_whole {mem : Memory} (h : Memory.WholeWords mem) (k : Nat) :
    Memory.WholeWords (eraseWord mem (elemOff k)) := by
  intro k' d hd hs
  by_cases hk : k' = k
  · subst hk
    rw [readByte_eraseWord, if_pos (by omega)] at hs; simp at hs
  · rw [readWord_eraseWord_other _ (by simp only [elemOff]; omega)]
    rw [readByte_eraseWord, if_neg (by simp only [elemOff]; omega)] at hs
    exact h k' d hd hs

theorem writeWord_inBuffer {c : Params} {mem : Memory} (h : Memory.InBuffer c mem) {k : Nat} (hk : k < c.elemWords)
    (w : Word) : Memory.InBuffer c (writeWord mem (elemOff k) w) := by
  intro q hq
  rw [readByte_writeWord] at hq
  split at hq
  · simp only [elemOff] at *; omega
  · exact h q hq

theorem eraseWord_inBuffer {c : Params} {mem : Memory} (h : Memory.InBuffer c mem) (off : Nat) :
    Memory.InBuffer c (eraseWord mem off) := by
  intro q hq
  rw [readByte_eraseWord] at hq
  split at hq
  · simp at hq
  · exact h q hq

theorem writeWords_whole : ∀ (n k : Nat) (mem : Memory) (v : Nat), Memory.WholeWords mem →
    Memory.WholeWords (writeWords mem k n v) := by
  intro n
  induction n with
  | zero => intro k mem v h; exact h
  | succ n ih => intro k mem v h; exact ih _ _ _ (writeWord_whole h _ _)

theorem eraseWords_whole : ∀ (n k : Nat) (mem : Memory), Memory.WholeWords mem →
    Memory.WholeWords (eraseWords mem k n) := by
  intro n
  induction n with
  | zero => intro k mem h; exact h
  | succ n ih => intro k mem h; exact ih _ _ (eraseWord_whole h _)

theorem writeWords_inBuffer {c : Params} : ∀ (n k : Nat) (mem : Memory) (v : Nat), k + n ≤ c.elemWords →
    Memory.InBuffer c mem → Memory.InBuffer c (writeWords mem k n v) := by
  intro n
  induction n with
  | zero => intro k mem v _ h; exact h
  | succ n ih => intro k mem v hk h; exact ih _ _ _ (by omega) (writeWord_inBuffer h (by omega) _)

theorem eraseWords_inBuffer {c : Params} : ∀ (n k : Nat) (mem : Memory), Memory.InBuffer c mem →
    Memory.InBuffer c (eraseWords mem k n) := by
  intro n
  induction n with
  | zero => intro k mem h; exact h
  | succ n ih => intro k mem h; exact ih _ _ (eraseWord_inBuffer h _)

theorem mapLanes_whole {nw e m : Nat} {mem : Memory} (h : Memory.WholeWords mem) :
    ∀ n, Memory.WholeWords (mapLanes nw e m mem n) := by
  intro n
  induction n with
  | zero => exact h
  | succ n ih =>
    unfold mapLanes mapLane; split
    · exact writeWords_whole _ _ _ _ ih
    · exact eraseWords_whole _ _ _ ih

theorem mapLanes_inBuffer {c : Params} {e m : Nat} {mem : Memory} (h : Memory.InBuffer c mem) :
    ∀ n, n ≤ c.depth → Memory.InBuffer c (mapLanes c.nw e m mem n) := by
  intro n
  induction n with
  | zero => intro _; exact h
  | succ n ih =>
    intro hn
    have hle : n * c.nw + c.nw ≤ c.elemWords := by
      rw [← Nat.succ_mul]; exact Nat.mul_le_mul_right _ hn
    unfold mapLanes mapLane; split
    · exact writeWords_inBuffer _ _ _ _ hle (ih (by omega))
    · exact eraseWords_inBuffer _ _ _ (ih (by omega))

end Sys2Proof.Machine
end

