-- ==== Sys2Proof/Laws/Operands.lean ====
section
/-! SUPPORT. The words of a W-bit value: reading and writing one word (20_memory.md R46, R47). -/

namespace Sys2Proof.Machine

theorem pow_word (j : Nat) : (2 : Nat) ^ (32 * (j + 1)) = 2 ^ (32 * j) * 2 ^ 32 := by
  rw [← pow_add]; congr 1

/-- The three parts of a value after a word is written: below the word, the word, above it. -/
theorem setWordAt_div (x j : Nat) (v : Word) :
    setWordAt x j v / 2 ^ (32 * j) = v.toNat + 2 ^ 32 * (x / 2 ^ (32 * (j + 1))) := by
  have hpos : 0 < 2 ^ (32 * j) := Nat.two_pow_pos _
  unfold setWordAt
  rw [Nat.add_mul_div_left _ _ hpos, Nat.div_eq_of_lt (Nat.mod_lt _ hpos), zero_add]

theorem setWordAt_mod (x j : Nat) (v : Word) : setWordAt x j v % 2 ^ (32 * j) = x % 2 ^ (32 * j) := by
  unfold setWordAt
  rw [Nat.add_mul_mod_self_left, Nat.mod_mod]

theorem setWordAt_div_succ (x j : Nat) (v : Word) :
    setWordAt x j v / 2 ^ (32 * (j + 1)) = x / 2 ^ (32 * (j + 1)) := by
  have hv := v.isLt
  rw [pow_word, ← Nat.div_div_eq_div_mul, setWordAt_div, pow_word]
  omega

/-- A word written reads back. -/
@[simp] theorem wordAt_setWordAt_self (x j : Nat) (v : Word) : wordAt (setWordAt x j v) j = v := by
  unfold wordAt
  rw [setWordAt_div]
  apply BitVec.eq_of_toNat_eq
  rw [BitVec.toNat_ofNat, Nat.add_mul_mod_self_left, Nat.mod_eq_of_lt v.isLt]

/-- The other words are unchanged. -/
theorem wordAt_setWordAt_other (x : Nat) {j k : Nat} (v : Word) (h : k ≠ j) :
    wordAt (setWordAt x j v) k = wordAt x k := by
  unfold wordAt
  rcases Nat.lt_or_gt_of_ne h with hlt | hgt
  · obtain ⟨d, rfl⟩ : ∃ d, j = k + 1 + d := ⟨j - (k + 1), by omega⟩
    have hmod := setWordAt_mod x (k + 1 + d) v
    have hpow : (2 : Nat) ^ (32 * (k + 1 + d)) = 2 ^ (32 * k) * 2 ^ 32 * 2 ^ (32 * d) := by
      rw [← pow_add, ← pow_add]; congr 1; ring
    have key : ∀ y : Nat, BitVec.ofNat 32 (y / 2 ^ (32 * k))
        = BitVec.ofNat 32 (y % 2 ^ (32 * (k + 1 + d)) / 2 ^ (32 * k)) := by
      intro y
      apply BitVec.eq_of_toNat_eq
      rw [BitVec.toNat_ofNat, BitVec.toNat_ofNat, hpow, mul_assoc,
        Nat.mod_mul_right_div_self, Nat.mod_mul_right_mod]
    rw [key, hmod, ← key]
  · obtain ⟨d, rfl⟩ : ∃ d, k = j + 1 + d := ⟨k - (j + 1), by omega⟩
    have hpow : (2 : Nat) ^ (32 * (j + 1 + d)) = 2 ^ (32 * (j + 1)) * 2 ^ (32 * d) := by
      rw [← pow_add]; congr 1; ring
    rw [hpow, ← Nat.div_div_eq_div_mul, setWordAt_div_succ, Nat.div_div_eq_div_mul]

/-- A word written inside the register keeps the register's width. -/
theorem setWordAt_lt {x j nw : Nat} (v : Word) (hx : x < 2 ^ (32 * nw)) (hj : j < nw) :
    setWordAt x j v < 2 ^ (32 * nw) := by
  obtain ⟨d, rfl⟩ : ∃ d, nw = j + 1 + d := ⟨nw - (j + 1), by omega⟩
  have hpow : (2 : Nat) ^ (32 * (j + 1 + d)) = 2 ^ (32 * (j + 1)) * 2 ^ (32 * d) := by
    rw [← pow_add]; congr 1; ring
  rw [hpow] at hx ⊢
  have hdiv : setWordAt x j v / 2 ^ (32 * (j + 1)) < 2 ^ (32 * d) := by
    rw [setWordAt_div_succ]; exact Nat.div_lt_of_lt_mul hx
  exact (Nat.div_lt_iff_lt_mul (Nat.two_pow_pos _)).1 hdiv |>.trans_eq (mul_comm _ _)

/-- Writing a word twice is writing it once. -/
theorem setWordAt_setWordAt (x j : Nat) (v w : Word) : setWordAt (setWordAt x j v) j w = setWordAt x j w := by
  conv_lhs => rw [setWordAt, setWordAt_mod, setWordAt_div_succ]
  rfl

/-- A W-bit value is the sum of its words (20_memory.md R46). -/
theorem sum_words (x : Nat) : ∀ nw : Nat,
    ((List.range nw).map (fun j => (wordAt x j).toNat * 2 ^ (32 * j))).sum = x % 2 ^ (32 * nw) := by
  intro nw
  induction nw with
  | zero => simp [Nat.mod_one]
  | succ n ih =>
    rw [List.range_succ, List.map_append, List.sum_append, ih, pow_word, Nat.mod_mul]
    simp [wordAt, BitVec.toNat_ofNat, mul_comm]

/-! ### The register map -/

/-- A register window's row of the register map: A, B, E, M and R are the windows 1 to 5 of 0x1000 bytes. -/
theorem locate_register (c : Params) (hnw : c.nw ≤ 1024) {w j : Nat} (hw : 1 ≤ w ∧ w ≤ 5) (hj : j < c.nw) :
    locate c (w * 0x1000 + 4 * j) = registerPlace w j := by
  have hdiv : (w * 0x1000 + 4 * j) / 0x1000 = w := by omega
  have hmod : (w * 0x1000 + 4 * j) % 0x1000 / 4 = j := by omega
  have hlow : ¬ w * 0x1000 + 4 * j < 0x001000 := by omega
  have hhigh : w * 0x1000 + 4 * j < 0x006000 := by omega
  simp only [locate, windowPlace, if_neg hlow, if_pos hhigh, hdiv, hmod, if_pos hj]

/-- The element window's row of the register map. -/
theorem locate_elem (c : Params) {k : Nat} (hk : k < c.elemWords) : locate c (elemOff k) = .elem k := by
  have hlow : ¬ elemOff k < elemBase := by unfold elemOff; omega
  have hword : (elemOff k - elemBase) / 4 = k := by unfold elemOff; omega
  have hwin : ¬ elemOff k < 0x001000 ∧ ¬ elemOff k < 0x006000 := by simp only [elemOff, elemBase]; omega
  simp [locate, bufferPlace, hlow, hword, hwin, hk]

/-- The reserved rows of the register map (20_memory.md R42, R49). -/
theorem locate_reserved {c : Params} {off : Nat} (hal : off % 4 = 0)
    (h : (0x00001C ≤ off ∧ off < 0x001000) ∨ (0x006000 ≤ off ∧ off < elemBase) ∨
      (0x001000 ≤ off ∧ off < 0x006000 ∧ c.nw ≤ off % 0x1000 / 4) ∨ elemOff c.elemWords ≤ off) :
    locate c off = .reserved := by
  simp only [elemOff, elemBase] at h
  unfold locate windowPlace bufferPlace elemBase
  split
  · unfold controlPlace; split <;> first | rfl | omega
  · split
    · rw [if_neg (by omega)]
    · split
      · rfl
      · rw [if_neg (by omega)]

/-- What an offset can stand for: a control register, a word of a register inside the operand's width, an element
word inside the buffer, or nothing. -/
theorem locate_cases (c : Params) (off : Nat) :
    locate c off ∈ [Place.id, .param, .ctrl, .status, .cmd, .errcode, .len, .reserved] ∨
    (∃ w j, j < c.nw ∧ locate c off = registerPlace w j) ∨
    (∃ k, k < c.elemWords ∧ locate c off = .elem k) := by
  generalize hp : locate c off = p
  unfold locate controlPlace windowPlace bufferPlace at hp
  repeat' split at hp
  all_goals subst hp
  all_goals first
    | exact .inr (.inl ⟨_, _, ‹_›, rfl⟩)
    | exact .inr (.inr ⟨_, ‹_›, rfl⟩)
    | exact .inl (by simp)

theorem registerPlace_cases (w j : Nat) :
    (∃ x, registerPlace w j = .operand x j) ∨ registerPlace w j = .result j := by
  unfold registerPlace
  split
  · exact .inl ⟨_, rfl⟩
  · exact .inl ⟨_, rfl⟩
  · exact .inl ⟨_, rfl⟩
  · exact .inl ⟨_, rfl⟩
  · exact .inr rfl

/-- A word of an operand register stands in the window only inside the operand's width. -/
theorem locate_operand_lt {c : Params} {off : Nat} {x : Operand} {j : Nat} (h : locate c off = .operand x j) :
    j < c.nw := by
  rcases locate_cases c off with hc | ⟨w, i, hi, hc⟩ | ⟨k, _, hc⟩
  · rw [h] at hc; simp at hc
  · rw [h] at hc
    rcases registerPlace_cases w i with ⟨y, hy⟩ | hy
    · rw [hy] at hc; simp only [Place.operand.injEq] at hc; omega
    · rw [hy] at hc; simp at hc
  · rw [h] at hc; simp at hc

/-- An element word stands in the window only inside the buffer. -/
theorem locate_elem_lt {c : Params} {off k : Nat} (h : locate c off = .elem k) : k < c.elemWords := by
  rcases locate_cases c off with hc | ⟨w, i, _, hc⟩ | ⟨i, hi, hc⟩
  · rw [h] at hc; simp at hc
  · rw [h] at hc
    rcases registerPlace_cases w i with ⟨y, hy⟩ | hy <;> rw [hy] at hc <;> simp at hc
  · rw [h] at hc; simp only [Place.elem.injEq] at hc; omega

/-- Which offset each row of the register map comes from: the control registers by their offsets, a register word by
its window, an element word by its index. -/
theorem locate_offset {c : Params} {off : Nat} (hal : off % 4 = 0) :
    match locate c off with
    | .id => off = 0x000000
    | .param => off = 0x000004
    | .ctrl => off = 0x000008
    | .status => off = 0x00000C
    | .cmd => off = 0x000010
    | .errcode => off = 0x000014
    | .len => off = 0x000018
    | .operand .a j => off = 0x001000 + 4 * j
    | .operand .b j => off = 0x002000 + 4 * j
    | .operand .e j => off = 0x003000 + 4 * j
    | .operand .m j => off = 0x004000 + 4 * j
    | .result j => off = 0x005000 + 4 * j
    | .elem k => off = elemOff k
    | .reserved => True := by
  generalize hp : locate c off = p
  unfold locate controlPlace windowPlace bufferPlace at hp
  repeat' split at hp
  all_goals try (subst hp; first | rfl | trivial)
  · next hlow hhigh _ =>
    have hw : off / 0x1000 = 1 ∨ off / 0x1000 = 2 ∨ off / 0x1000 = 3 ∨ off / 0x1000 = 4 ∨ off / 0x1000 = 5 := by omega
    rcases hw with hw | hw | hw | hw | hw <;> rw [hw] at hp <;> subst hp <;> simp only [registerPlace] <;> omega
  · subst hp; simp only [elemOff, elemBase] at *; omega

end Sys2Proof.Machine
end

