-- ==== Sys2Proof/Laws/State.lean ====
section
/-! SUPPORT. One lemma per field per update of the state, true by computation, so that no later proof unfolds an update. -/

namespace Sys2Proof.Machine

variable (s : State)

/-! ### The tail of a completion (60_exceptions.md R99) -/

@[simp] theorem State.complete_cfg (code : ErrorCode) : (s.complete code).cfg = s.cfg := rfl
@[simp] theorem State.complete_a (code : ErrorCode) : (s.complete code).a = s.a := rfl
@[simp] theorem State.complete_b (code : ErrorCode) : (s.complete code).b = s.b := rfl
@[simp] theorem State.complete_e (code : ErrorCode) : (s.complete code).e = s.e := rfl
@[simp] theorem State.complete_m (code : ErrorCode) : (s.complete code).m = s.m := rfl
@[simp] theorem State.complete_r (code : ErrorCode) : (s.complete code).r = s.r := rfl
@[simp] theorem State.complete_len (code : ErrorCode) : (s.complete code).len = s.len := rfl
@[simp] theorem State.complete_ie (code : ErrorCode) : (s.complete code).ie = s.ie := rfl
@[simp] theorem State.complete_busy (code : ErrorCode) : (s.complete code).busy = false := rfl
@[simp] theorem State.complete_done (code : ErrorCode) : (s.complete code).done = true := rfl
@[simp] theorem State.complete_err (code : ErrorCode) : (s.complete code).err = code.isError := rfl
@[simp] theorem State.complete_ovr (code : ErrorCode) : (s.complete code).ovr = s.ovr := rfl
@[simp] theorem State.complete_errcode (code : ErrorCode) : (s.complete code).errcode = code.toByte := rfl
@[simp] theorem State.complete_elem (code : ErrorCode) : (s.complete code).elem = s.elem := rfl
@[simp] theorem State.complete_pend (code : ErrorCode) : (s.complete code).pend = none := rfl
@[simp] theorem State.complete_host (code : ErrorCode) : (s.complete code).host = s.host := rfl
@[simp] theorem State.complete_sched (code : ErrorCode) : (s.complete code).sched = s.sched := rfl
@[simp] theorem State.complete_draws (code : ErrorCode) : (s.complete code).draws = s.draws := rfl

/-! ### Acceptance (10_state.md R35) -/

@[simp] theorem State.accept_cfg (v : Word) : (s.accept v).cfg = s.cfg := rfl
@[simp] theorem State.accept_a (v : Word) : (s.accept v).a = s.a := rfl
@[simp] theorem State.accept_b (v : Word) : (s.accept v).b = s.b := rfl
@[simp] theorem State.accept_e (v : Word) : (s.accept v).e = s.e := rfl
@[simp] theorem State.accept_m (v : Word) : (s.accept v).m = s.m := rfl
@[simp] theorem State.accept_r (v : Word) : (s.accept v).r = s.r := rfl
@[simp] theorem State.accept_len (v : Word) : (s.accept v).len = s.len := rfl
@[simp] theorem State.accept_ie (v : Word) : (s.accept v).ie = s.ie := rfl
@[simp] theorem State.accept_busy (v : Word) : (s.accept v).busy = true := rfl
@[simp] theorem State.accept_done (v : Word) : (s.accept v).done = false := rfl
@[simp] theorem State.accept_err (v : Word) : (s.accept v).err = false := rfl
@[simp] theorem State.accept_ovr (v : Word) : (s.accept v).ovr = s.ovr := rfl
@[simp] theorem State.accept_errcode (v : Word) : (s.accept v).errcode = s.errcode := rfl
@[simp] theorem State.accept_elem (v : Word) : (s.accept v).elem = s.elem := rfl
@[simp] theorem State.accept_pend (v : Word) : (s.accept v).pend = some (s.latch v) := rfl
@[simp] theorem State.accept_host (v : Word) : (s.accept v).host = s.host := rfl
@[simp] theorem State.accept_sched (v : Word) : (s.accept v).sched = s.sched := rfl
@[simp] theorem State.accept_draws (v : Word) : (s.accept v).draws = s.draws := rfl

/-! ### A dropped write (60_exceptions.md R102) -/

@[simp] theorem State.dropWrite_cfg : s.dropWrite.cfg = s.cfg := rfl
@[simp] theorem State.dropWrite_a : s.dropWrite.a = s.a := rfl
@[simp] theorem State.dropWrite_b : s.dropWrite.b = s.b := rfl
@[simp] theorem State.dropWrite_e : s.dropWrite.e = s.e := rfl
@[simp] theorem State.dropWrite_m : s.dropWrite.m = s.m := rfl
@[simp] theorem State.dropWrite_r : s.dropWrite.r = s.r := rfl
@[simp] theorem State.dropWrite_len : s.dropWrite.len = s.len := rfl
@[simp] theorem State.dropWrite_ie : s.dropWrite.ie = s.ie := rfl
@[simp] theorem State.dropWrite_busy : s.dropWrite.busy = s.busy := rfl
@[simp] theorem State.dropWrite_done : s.dropWrite.done = s.done := rfl
@[simp] theorem State.dropWrite_err : s.dropWrite.err = s.err := rfl
@[simp] theorem State.dropWrite_ovr : s.dropWrite.ovr = true := rfl
@[simp] theorem State.dropWrite_errcode : s.dropWrite.errcode = s.errcode := rfl
@[simp] theorem State.dropWrite_elem : s.dropWrite.elem = s.elem := rfl
@[simp] theorem State.dropWrite_pend : s.dropWrite.pend = s.pend := rfl
@[simp] theorem State.dropWrite_host : s.dropWrite.host = s.host := rfl
@[simp] theorem State.dropWrite_sched : s.dropWrite.sched = s.sched := rfl
@[simp] theorem State.dropWrite_draws : s.dropWrite.draws = s.draws := rfl

/-! ### A write of STATUS (10_state.md R26) -/

@[simp] theorem State.writeStatus_cfg (v : Word) : (s.writeStatus v).cfg = s.cfg := rfl
@[simp] theorem State.writeStatus_a (v : Word) : (s.writeStatus v).a = s.a := rfl
@[simp] theorem State.writeStatus_b (v : Word) : (s.writeStatus v).b = s.b := rfl
@[simp] theorem State.writeStatus_e (v : Word) : (s.writeStatus v).e = s.e := rfl
@[simp] theorem State.writeStatus_m (v : Word) : (s.writeStatus v).m = s.m := rfl
@[simp] theorem State.writeStatus_r (v : Word) : (s.writeStatus v).r = s.r := rfl
@[simp] theorem State.writeStatus_len (v : Word) : (s.writeStatus v).len = s.len := rfl
@[simp] theorem State.writeStatus_ie (v : Word) : (s.writeStatus v).ie = s.ie := rfl
@[simp] theorem State.writeStatus_busy (v : Word) : (s.writeStatus v).busy = s.busy := rfl
@[simp] theorem State.writeStatus_done (v : Word) : (s.writeStatus v).done = clearByOne s.done v 1 := rfl
@[simp] theorem State.writeStatus_err (v : Word) : (s.writeStatus v).err = clearByOne s.err v 2 := rfl
@[simp] theorem State.writeStatus_ovr (v : Word) : (s.writeStatus v).ovr = clearByOne s.ovr v 3 := rfl
@[simp] theorem State.writeStatus_errcode (v : Word) : (s.writeStatus v).errcode = s.errcode := rfl
@[simp] theorem State.writeStatus_elem (v : Word) : (s.writeStatus v).elem = s.elem := rfl
@[simp] theorem State.writeStatus_pend (v : Word) : (s.writeStatus v).pend = s.pend := rfl
@[simp] theorem State.writeStatus_host (v : Word) : (s.writeStatus v).host = s.host := rfl
@[simp] theorem State.writeStatus_sched (v : Word) : (s.writeStatus v).sched = s.sched := rfl
@[simp] theorem State.writeStatus_draws (v : Word) : (s.writeStatus v).draws = s.draws := rfl

/-! ### Reset (70_reset_and_hazards.md R120) -/

@[simp] theorem State.resetBlock_cfg : s.resetBlock.cfg = s.cfg := rfl
@[simp] theorem State.resetBlock_a : s.resetBlock.a = 0 := rfl
@[simp] theorem State.resetBlock_b : s.resetBlock.b = 0 := rfl
@[simp] theorem State.resetBlock_e : s.resetBlock.e = 0 := rfl
@[simp] theorem State.resetBlock_m : s.resetBlock.m = 0 := rfl
@[simp] theorem State.resetBlock_r : s.resetBlock.r = 0 := rfl
@[simp] theorem State.resetBlock_len : s.resetBlock.len = 0#32 := rfl
@[simp] theorem State.resetBlock_ie : s.resetBlock.ie = false := rfl
@[simp] theorem State.resetBlock_busy : s.resetBlock.busy = false := rfl
@[simp] theorem State.resetBlock_done : s.resetBlock.done = false := rfl
@[simp] theorem State.resetBlock_err : s.resetBlock.err = false := rfl
@[simp] theorem State.resetBlock_ovr : s.resetBlock.ovr = false := rfl
@[simp] theorem State.resetBlock_errcode : s.resetBlock.errcode = 0#8 := rfl
@[simp] theorem State.resetBlock_elem : s.resetBlock.elem = [] := rfl
@[simp] theorem State.resetBlock_pend : s.resetBlock.pend = none := rfl
@[simp] theorem State.resetBlock_host : s.resetBlock.host = s.host := rfl
@[simp] theorem State.resetBlock_sched : s.resetBlock.sched = s.sched := rfl
@[simp] theorem State.resetBlock_draws : s.resetBlock.draws = s.draws := rfl

/-! ### The host's next line -/

@[simp] theorem State.advance_cfg : s.advance.cfg = s.cfg := rfl
@[simp] theorem State.advance_a : s.advance.a = s.a := rfl
@[simp] theorem State.advance_b : s.advance.b = s.b := rfl
@[simp] theorem State.advance_e : s.advance.e = s.e := rfl
@[simp] theorem State.advance_m : s.advance.m = s.m := rfl
@[simp] theorem State.advance_r : s.advance.r = s.r := rfl
@[simp] theorem State.advance_len : s.advance.len = s.len := rfl
@[simp] theorem State.advance_ie : s.advance.ie = s.ie := rfl
@[simp] theorem State.advance_busy : s.advance.busy = s.busy := rfl
@[simp] theorem State.advance_done : s.advance.done = s.done := rfl
@[simp] theorem State.advance_err : s.advance.err = s.err := rfl
@[simp] theorem State.advance_ovr : s.advance.ovr = s.ovr := rfl
@[simp] theorem State.advance_errcode : s.advance.errcode = s.errcode := rfl
@[simp] theorem State.advance_elem : s.advance.elem = s.elem := rfl
@[simp] theorem State.advance_pend : s.advance.pend = s.pend := rfl
@[simp] theorem State.advance_host : s.advance.host = { s.host with pos := s.host.pos + 1 } := rfl
@[simp] theorem State.advance_sched : s.advance.sched = s.sched := rfl
@[simp] theorem State.advance_draws : s.advance.draws = s.draws := rfl

/-! ### A host assignment -/

@[simp] theorem State.setVar_cfg (x : Nat) (z : Int) : (s.setVar x z).cfg = s.cfg := rfl
@[simp] theorem State.setVar_a (x : Nat) (z : Int) : (s.setVar x z).a = s.a := rfl
@[simp] theorem State.setVar_b (x : Nat) (z : Int) : (s.setVar x z).b = s.b := rfl
@[simp] theorem State.setVar_e (x : Nat) (z : Int) : (s.setVar x z).e = s.e := rfl
@[simp] theorem State.setVar_m (x : Nat) (z : Int) : (s.setVar x z).m = s.m := rfl
@[simp] theorem State.setVar_r (x : Nat) (z : Int) : (s.setVar x z).r = s.r := rfl
@[simp] theorem State.setVar_len (x : Nat) (z : Int) : (s.setVar x z).len = s.len := rfl
@[simp] theorem State.setVar_ie (x : Nat) (z : Int) : (s.setVar x z).ie = s.ie := rfl
@[simp] theorem State.setVar_busy (x : Nat) (z : Int) : (s.setVar x z).busy = s.busy := rfl
@[simp] theorem State.setVar_done (x : Nat) (z : Int) : (s.setVar x z).done = s.done := rfl
@[simp] theorem State.setVar_err (x : Nat) (z : Int) : (s.setVar x z).err = s.err := rfl
@[simp] theorem State.setVar_ovr (x : Nat) (z : Int) : (s.setVar x z).ovr = s.ovr := rfl
@[simp] theorem State.setVar_errcode (x : Nat) (z : Int) : (s.setVar x z).errcode = s.errcode := rfl
@[simp] theorem State.setVar_elem (x : Nat) (z : Int) : (s.setVar x z).elem = s.elem := rfl
@[simp] theorem State.setVar_pend (x : Nat) (z : Int) : (s.setVar x z).pend = s.pend := rfl
@[simp] theorem State.setVar_host (x : Nat) (z : Int) : (s.setVar x z).host = { s.host with vars := insertKey s.host.vars x z } := rfl
@[simp] theorem State.setVar_sched (x : Nat) (z : Int) : (s.setVar x z).sched = s.sched := rfl
@[simp] theorem State.setVar_draws (x : Nat) (z : Int) : (s.setVar x z).draws = s.draws := rfl

/-! ### A host jump -/

@[simp] theorem State.gotoLine_cfg (pos : Nat) : (s.gotoLine pos).cfg = s.cfg := rfl
@[simp] theorem State.gotoLine_a (pos : Nat) : (s.gotoLine pos).a = s.a := rfl
@[simp] theorem State.gotoLine_b (pos : Nat) : (s.gotoLine pos).b = s.b := rfl
@[simp] theorem State.gotoLine_e (pos : Nat) : (s.gotoLine pos).e = s.e := rfl
@[simp] theorem State.gotoLine_m (pos : Nat) : (s.gotoLine pos).m = s.m := rfl
@[simp] theorem State.gotoLine_r (pos : Nat) : (s.gotoLine pos).r = s.r := rfl
@[simp] theorem State.gotoLine_len (pos : Nat) : (s.gotoLine pos).len = s.len := rfl
@[simp] theorem State.gotoLine_ie (pos : Nat) : (s.gotoLine pos).ie = s.ie := rfl
@[simp] theorem State.gotoLine_busy (pos : Nat) : (s.gotoLine pos).busy = s.busy := rfl
@[simp] theorem State.gotoLine_done (pos : Nat) : (s.gotoLine pos).done = s.done := rfl
@[simp] theorem State.gotoLine_err (pos : Nat) : (s.gotoLine pos).err = s.err := rfl
@[simp] theorem State.gotoLine_ovr (pos : Nat) : (s.gotoLine pos).ovr = s.ovr := rfl
@[simp] theorem State.gotoLine_errcode (pos : Nat) : (s.gotoLine pos).errcode = s.errcode := rfl
@[simp] theorem State.gotoLine_elem (pos : Nat) : (s.gotoLine pos).elem = s.elem := rfl
@[simp] theorem State.gotoLine_pend (pos : Nat) : (s.gotoLine pos).pend = s.pend := rfl
@[simp] theorem State.gotoLine_host (pos : Nat) : (s.gotoLine pos).host = { s.host with pos := pos } := rfl
@[simp] theorem State.gotoLine_sched (pos : Nat) : (s.gotoLine pos).sched = s.sched := rfl
@[simp] theorem State.gotoLine_draws (pos : Nat) : (s.gotoLine pos).draws = s.draws := rfl

/-! ### The host's halt -/

@[simp] theorem State.haltHost_cfg : s.haltHost.cfg = s.cfg := rfl
@[simp] theorem State.haltHost_a : s.haltHost.a = s.a := rfl
@[simp] theorem State.haltHost_b : s.haltHost.b = s.b := rfl
@[simp] theorem State.haltHost_e : s.haltHost.e = s.e := rfl
@[simp] theorem State.haltHost_m : s.haltHost.m = s.m := rfl
@[simp] theorem State.haltHost_r : s.haltHost.r = s.r := rfl
@[simp] theorem State.haltHost_len : s.haltHost.len = s.len := rfl
@[simp] theorem State.haltHost_ie : s.haltHost.ie = s.ie := rfl
@[simp] theorem State.haltHost_busy : s.haltHost.busy = s.busy := rfl
@[simp] theorem State.haltHost_done : s.haltHost.done = s.done := rfl
@[simp] theorem State.haltHost_err : s.haltHost.err = s.err := rfl
@[simp] theorem State.haltHost_ovr : s.haltHost.ovr = s.ovr := rfl
@[simp] theorem State.haltHost_errcode : s.haltHost.errcode = s.errcode := rfl
@[simp] theorem State.haltHost_elem : s.haltHost.elem = s.elem := rfl
@[simp] theorem State.haltHost_pend : s.haltHost.pend = s.pend := rfl
@[simp] theorem State.haltHost_host : s.haltHost.host = { s.host with halted := true } := rfl
@[simp] theorem State.haltHost_sched : s.haltHost.sched = s.sched := rfl
@[simp] theorem State.haltHost_draws : s.haltHost.draws = s.draws := rfl

/-! ### The next event taken off the order -/

@[simp] theorem State.popMove_cfg : s.popMove.cfg = s.cfg := rfl
@[simp] theorem State.popMove_a : s.popMove.a = s.a := rfl
@[simp] theorem State.popMove_b : s.popMove.b = s.b := rfl
@[simp] theorem State.popMove_e : s.popMove.e = s.e := rfl
@[simp] theorem State.popMove_m : s.popMove.m = s.m := rfl
@[simp] theorem State.popMove_r : s.popMove.r = s.r := rfl
@[simp] theorem State.popMove_len : s.popMove.len = s.len := rfl
@[simp] theorem State.popMove_ie : s.popMove.ie = s.ie := rfl
@[simp] theorem State.popMove_busy : s.popMove.busy = s.busy := rfl
@[simp] theorem State.popMove_done : s.popMove.done = s.done := rfl
@[simp] theorem State.popMove_err : s.popMove.err = s.err := rfl
@[simp] theorem State.popMove_ovr : s.popMove.ovr = s.ovr := rfl
@[simp] theorem State.popMove_errcode : s.popMove.errcode = s.errcode := rfl
@[simp] theorem State.popMove_elem : s.popMove.elem = s.elem := rfl
@[simp] theorem State.popMove_pend : s.popMove.pend = s.pend := rfl
@[simp] theorem State.popMove_host : s.popMove.host = s.host := rfl
@[simp] theorem State.popMove_sched : s.popMove.sched = s.sched.tail := rfl
@[simp] theorem State.popMove_draws : s.popMove.draws = s.draws := rfl

/-! ### A write of an operand register (20_memory.md R47) -/

@[simp] theorem State.setOperand_cfg (x : Operand) (v : Nat) : (s.setOperand x v).cfg = s.cfg := by cases x <;> rfl
@[simp] theorem State.setOperand_r (x : Operand) (v : Nat) : (s.setOperand x v).r = s.r := by cases x <;> rfl
@[simp] theorem State.setOperand_len (x : Operand) (v : Nat) : (s.setOperand x v).len = s.len := by cases x <;> rfl
@[simp] theorem State.setOperand_ie (x : Operand) (v : Nat) : (s.setOperand x v).ie = s.ie := by cases x <;> rfl
@[simp] theorem State.setOperand_busy (x : Operand) (v : Nat) : (s.setOperand x v).busy = s.busy := by cases x <;> rfl
@[simp] theorem State.setOperand_done (x : Operand) (v : Nat) : (s.setOperand x v).done = s.done := by cases x <;> rfl
@[simp] theorem State.setOperand_err (x : Operand) (v : Nat) : (s.setOperand x v).err = s.err := by cases x <;> rfl
@[simp] theorem State.setOperand_ovr (x : Operand) (v : Nat) : (s.setOperand x v).ovr = s.ovr := by cases x <;> rfl
@[simp] theorem State.setOperand_errcode (x : Operand) (v : Nat) : (s.setOperand x v).errcode = s.errcode := by cases x <;> rfl
@[simp] theorem State.setOperand_elem (x : Operand) (v : Nat) : (s.setOperand x v).elem = s.elem := by cases x <;> rfl
@[simp] theorem State.setOperand_pend (x : Operand) (v : Nat) : (s.setOperand x v).pend = s.pend := by cases x <;> rfl
@[simp] theorem State.setOperand_host (x : Operand) (v : Nat) : (s.setOperand x v).host = s.host := by cases x <;> rfl
@[simp] theorem State.setOperand_sched (x : Operand) (v : Nat) : (s.setOperand x v).sched = s.sched := by cases x <;> rfl
@[simp] theorem State.setOperand_draws (x : Operand) (v : Nat) : (s.setOperand x v).draws = s.draws := by cases x <;> rfl

@[simp] theorem State.operand_setOperand_self (x : Operand) (v : Nat) : (s.setOperand x v).operand x = v := by
  cases x <;> rfl

theorem State.operand_setOperand_other {x y : Operand} (h : y ≠ x) (v : Nat) :
    (s.setOperand x v).operand y = s.operand y := by
  cases x <;> cases y <;> first | rfl | exact absurd rfl h

/-! ### The operands, under every update that is no operand write -/

@[simp] theorem State.complete_operand (code : ErrorCode) (x : Operand) : (s.complete code).operand x = s.operand x := by cases x <;> rfl
@[simp] theorem State.accept_operand (v : Word) (x : Operand) : (s.accept v).operand x = s.operand x := by cases x <;> rfl
@[simp] theorem State.dropWrite_operand (x : Operand) : s.dropWrite.operand x = s.operand x := by cases x <;> rfl
@[simp] theorem State.writeStatus_operand (v : Word) (x : Operand) : (s.writeStatus v).operand x = s.operand x := by cases x <;> rfl
@[simp] theorem State.advance_operand (x : Operand) : s.advance.operand x = s.operand x := by cases x <;> rfl
@[simp] theorem State.setVar_operand (x : Nat) (z : Int) (y : Operand) : (s.setVar x z).operand y = s.operand y := by cases y <;> rfl
@[simp] theorem State.gotoLine_operand (pos : Nat) (x : Operand) : (s.gotoLine pos).operand x = s.operand x := by cases x <;> rfl
@[simp] theorem State.haltHost_operand (x : Operand) : s.haltHost.operand x = s.operand x := by cases x <;> rfl
@[simp] theorem State.popMove_operand (x : Operand) : s.popMove.operand x = s.operand x := by cases x <;> rfl
@[simp] theorem State.resetBlock_operand (x : Operand) : s.resetBlock.operand x = 0 := by cases x <;> rfl

end Sys2Proof.Machine
end

