-- ==== Sys2Proof/Laws/Ops.lean ====
section
/-! SUPPORT. One lemma per shared operation that says once everything it can do: each command's meaning, the engine's
completion step, the window's write and read functions, and the host's line. -/

namespace Sys2Proof.Machine

variable {s : State} {p : Pending}

/-! ### The meanings -/

theorem withPending_none (h : s.pend = none) (body : Pending → Host.Outcome State Fault Refusal) :
    withPending s body = .fault .engineNotEnabled := by unfold withPending; rw [h]

theorem withPending_some (h : s.pend = some p) (body : Pending → Host.Outcome State Fault Refusal) :
    withPending s body = body p := by unfold withPending; rw [h]

/-- With no command in flight, the engine has no step (10_state.md R36). -/
theorem exec_none (h : s.pend = none) (i : Instr) : exec i s = .fault .engineNotEnabled := by
  cases i <;> exact withPending_none h _

theorem execGcd_some (h : s.pend = some p) :
    exec .gcd s = .next (State.complete { s with r := Nat.gcd p.a p.b } .none) := withPending_some h _

theorem execModinv_noInverse (h : s.pend = some p) (hg : Nat.gcd p.a p.m ≠ 1) :
    exec .modinv s = .next (s.complete .noInverse) := by
  change execModinv s = _
  rw [execModinv, withPending_some h, if_pos hg]; rfl

theorem execModinv_zeroModulus (h : s.pend = some p) (hg : Nat.gcd p.a p.m = 1) (hm : p.m = 0) :
    exec .modinv s = .next (s.complete .zeroModulus) := by
  change execModinv s = _
  rw [execModinv, withPending_some h, if_neg (not_not.2 hg), if_pos hm]; rfl

theorem execModinv_some (h : s.pend = some p) (hg : Nat.gcd p.a p.m = 1) (hm : p.m ≠ 0) :
    exec .modinv s = .next (State.complete { s with r := modInv p.a p.m } .none) := by
  change execModinv s = _
  rw [execModinv, withPending_some h, if_neg (not_not.2 hg), if_neg hm]; rfl

theorem execModpow_zeroModulus (h : s.pend = some p) (hm : p.m = 0) :
    exec .modpow s = .next (s.complete .zeroModulus) := by
  change execModpow s = _
  rw [execModpow, withPending_some h, if_pos hm]; rfl

theorem execModpow_some (h : s.pend = some p) (hm : p.m ≠ 0) :
    exec .modpow s = .next (State.complete { s with r := powMod p.a p.e p.m } .none) := by
  change execModpow s = _
  rw [execModpow, withPending_some h, if_neg hm]; rfl

theorem execMap_zeroModulus (h : s.pend = some p) (hm : p.m = 0) :
    exec .map s = .next (s.complete .zeroModulus) := by
  change execMap s = _
  rw [execMap, withPending_some h, if_pos hm]; rfl

theorem execMap_lenRange (h : s.pend = some p) (hm : p.m ≠ 0) (hl : s.cfg.depth < p.len.toNat) :
    exec .map s = .next (s.complete .lenRange) := by
  change execMap s = _
  rw [execMap, withPending_some h, if_neg hm, if_pos hl]; rfl

theorem execMap_some (h : s.pend = some p) (hm : p.m ≠ 0) (hl : p.len.toNat ≤ s.cfg.depth) :
    exec .map s =
      .next (State.complete { s with elem := mapLanes s.cfg.nw p.e p.m s.elem p.len.toNat } .none) := by
  change execMap s = _
  rw [execMap, withPending_some h, if_neg hm, if_neg (by omega)]; rfl

/-- A result of GCD, MODINV or MODPOW fits wherever the operands fit (40_arith_kernel.md R88). -/
def ResultFits (p : Pending) (v : Nat) : Prop := ∀ width, p.Fits width → v < 2 ^ width

theorem gcd_resultFits (p : Pending) : ResultFits p (Nat.gcd p.a p.b) := by
  rintro width ⟨ha, hb, -, -⟩
  rcases Nat.eq_zero_or_pos p.a with h | h
  · rw [h, Nat.gcd_zero_left]; exact hb
  · exact lt_of_le_of_lt (Nat.gcd_le_left _ h) ha

theorem modInv_resultFits (p : Pending) (hm : p.m ≠ 0) : ResultFits p (modInv p.a p.m) :=
  fun _ h => lt_trans (modInv_lt p.a hm) h.2.2.2

theorem powMod_resultFits (p : Pending) (hm : p.m ≠ 0) : ResultFits p (powMod p.a p.e p.m) :=
  fun _ h => lt_trans (powMod_lt p.a p.e hm) h.2.2.2

/-- Everything a legal command's completion can do: it fails with a code and writes no result, or it writes R, or
(MAP) the element buffer (60_exceptions.md R99, R100). -/
theorem exec_cases (h : s.pend = some p) (i : Instr) :
    (∃ code, code ≠ ErrorCode.none ∧ exec i s = .next (s.complete code)) ∨
    (∃ v, i ≠ .map ∧ ResultFits p v ∧ exec i s = .next (State.complete { s with r := v } .none)) ∨
    (i = .map ∧ p.m ≠ 0 ∧ p.len.toNat ≤ s.cfg.depth ∧
      exec i s = .next (State.complete { s with elem := mapLanes s.cfg.nw p.e p.m s.elem p.len.toNat } .none)) := by
  cases i with
  | gcd => exact .inr (.inl ⟨_, by simp, gcd_resultFits p, execGcd_some h⟩)
  | modinv =>
    by_cases hg : Nat.gcd p.a p.m = 1
    · by_cases hm : p.m = 0
      · exact .inl ⟨_, by simp, execModinv_zeroModulus h hg hm⟩
      · exact .inr (.inl ⟨_, by simp, modInv_resultFits p hm, execModinv_some h hg hm⟩)
    · exact .inl ⟨_, by simp, execModinv_noInverse h hg⟩
  | modpow =>
    by_cases hm : p.m = 0
    · exact .inl ⟨_, by simp, execModpow_zeroModulus h hm⟩
    · exact .inr (.inl ⟨_, by simp, powMod_resultFits p hm, execModpow_some h hm⟩)
  | map =>
    by_cases hm : p.m = 0
    · exact .inl ⟨_, by simp, execMap_zeroModulus h hm⟩
    · by_cases hl : p.len.toNat ≤ s.cfg.depth
      · exact .inr (.inr ⟨rfl, hm, hl, execMap_some h hm hl⟩)
      · exact .inl ⟨_, by simp, execMap_lenRange h hm (by omega)⟩

/-! ### The engine's completion step -/

theorem engineComplete_none (h : s.pend = none) : engineComplete s = .next s := by unfold engineComplete; rw [h]

theorem engineComplete_legal (h : s.pend = some p) {i : Instr} (hd : decode p.cmd = .legal i) :
    engineComplete s = exec i s := by unfold engineComplete; rw [h]; simp only [hd]

theorem engineComplete_illegal (h : s.pend = some p) {why : IllegalWord} (hd : decode p.cmd = .illegal why) :
    engineComplete s = .next (s.complete .illegalCmd) := by
  unfold engineComplete; rw [h]; simp only [hd]; rfl

/-- Everything the engine's turn can do. -/
theorem engineComplete_cases (s : State) :
    (s.pend = none ∧ engineComplete s = .next s) ∨
    ∃ p, s.pend = some p ∧
      ((∃ code, code ≠ ErrorCode.none ∧ engineComplete s = .next (s.complete code)) ∨
       (∃ v, (∃ i, i ≠ .map ∧ decode p.cmd = .legal i) ∧ ResultFits p v ∧
          engineComplete s = .next (State.complete { s with r := v } .none)) ∨
       (decode p.cmd = .legal .map ∧ p.m ≠ 0 ∧ p.len.toNat ≤ s.cfg.depth ∧ engineComplete s =
          .next (State.complete { s with elem := mapLanes s.cfg.nw p.e p.m s.elem p.len.toNat } .none))) := by
  cases hp : s.pend with
  | none => exact .inl ⟨rfl, engineComplete_none hp⟩
  | some p =>
    refine .inr ⟨p, rfl, ?_⟩
    cases hd : decode p.cmd with
    | illegal why => exact .inl ⟨_, by simp, engineComplete_illegal hp hd⟩
    | legal i =>
      rw [engineComplete_legal hp hd]
      rcases exec_cases hp i with ⟨code, hc, he⟩ | ⟨v, hi, hv, he⟩ | ⟨hi, hm, hl, he⟩
      · exact .inl ⟨code, hc, he⟩
      · exact .inr (.inl ⟨v, ⟨i, hi, rfl⟩, hv, he⟩)
      · exact .inr (.inr ⟨by rw [hi], hm, hl, he⟩)

/-! ### The window -/

/-- Everything a host write can do (20_memory.md R53). -/
theorem hostWrite_cases (s : State) (off : Nat) (v : Word) :
    s.hostWrite off v = s ∨
    (locate s.cfg off = .ctrl ∧ s.hostWrite off v = { s with ie := v.getLsbD 0 }) ∨
    (locate s.cfg off = .status ∧ s.hostWrite off v = s.writeStatus v) ∨
    (locate s.cfg off = .cmd ∧ s.busy = false ∧ s.hostWrite off v = s.accept v) ∨
    (locate s.cfg off = .len ∧ s.hostWrite off v = { s with len := v }) ∨
    (∃ x j, locate s.cfg off = .operand x j ∧ j < s.cfg.nw ∧
      s.hostWrite off v = s.setOperand x (setWordAt (s.operand x) j v)) ∨
    (∃ k, locate s.cfg off = .elem k ∧ k < s.cfg.elemWords ∧ s.busy = false ∧
      s.hostWrite off v = { s with elem := writeWord s.elem (elemOff k) v }) ∨
    (s.busy = true ∧ (locate s.cfg off = .cmd ∨ ∃ k, locate s.cfg off = .elem k) ∧
      s.hostWrite off v = s.dropWrite) := by
  unfold State.hostWrite
  cases hl : locate s.cfg off with
  | cmd => cases hb : s.busy <;> simp [State.writeCmd, hb]
  | elem k => cases hb : s.busy <;> simp [State.writeElemWord, hb, locate_elem_lt hl]
  | operand x j =>
    have hj := locate_operand_lt hl
    simp [hj]
  | _ => simp

/-- A host read changes nothing but the model's own index of free values (20_memory.md R50). -/
theorem hostRead_state (s : State) (off : Nat) : ∃ n, (s.hostRead off).2 = { s with draws := n } := by
  unfold State.hostRead
  split
  · exact ⟨s.draws, rfl⟩
  · exact ⟨s.draws + 1, rfl⟩

/-- The value of a host read whose word is specified. -/
theorem hostRead_of_some {off : Nat} {w : Word} (h : s.wordInWindow off = some w) : s.hostRead off = (w, s) := by
  unfold State.hostRead; rw [h]

theorem refusedTransaction_none {off bytes : Nat} :
    refusedTransaction off bytes = none ↔ transactionWellFormed off bytes = true := by
  unfold refusedTransaction transactionWellFormed
  by_cases h4 : bytes = 4 <;> by_cases ha : off % 4 = 0 <;> by_cases hw : windowSize ≤ off <;>
    (simp [h4, ha, hw]; try omega)

/-- A word-aligned 32-bit transaction is refused exactly outside the window (20_memory.md R41). -/
theorem refusedTransaction_aligned {off : Nat} (hal : off % 4 = 0) :
    refusedTransaction off 4 = if windowSize ≤ off then some .outsideWindow else none := by
  simp [refusedTransaction, hal]

/-- Everything a host line can do when it is not refused: it changes the host agent only, or it makes one read, or
one write (30_encoding.md R74). -/
theorem hostLine_cases {line : Line} {t : State} (h : hostLine line s = .next t) :
    (∃ hst : HostAgent, t = { s with host := hst } ∧ hst.prog = s.host.prog ∧
      (KeysRise s.host.vars → KeysRise hst.vars)) ∨
    (∃ x off bytes, line = .rd x off bytes ∧ transactionWellFormed off bytes = true ∧
      t = ((s.hostRead off).2.setVar x ((s.hostRead off).1.toNat : Int)).advance) ∨
    (∃ off bytes e, line = .wr off bytes e ∧ transactionWellFormed off bytes = true ∧
      t = (s.hostWrite off (busValue (e.eval s.host))).advance) := by
  have hgoto : ∀ l, gotoLabel l s = .next t →
      ∃ hst : HostAgent, t = { s with host := hst } ∧ hst.prog = s.host.prog ∧
        (KeysRise s.host.vars → KeysRise hst.vars) := by
    intro l hl
    unfold gotoLabel at hl
    split at hl
    · cases hl; exact ⟨_, rfl, rfl, id⟩
    · cases hl
  cases line with
  | label l => cases h; exact .inl ⟨_, rfl, rfl, id⟩
  | rd x off bytes =>
    change hostRd x off bytes s = _ at h
    unfold hostRd at h
    split at h
    · cases h
    · next hr => cases h; exact .inr (.inl ⟨x, off, bytes, rfl, refusedTransaction_none.1 hr, rfl⟩)
  | wr off bytes e =>
    change hostWr off bytes e s = _ at h
    unfold hostWr at h
    split at h
    · cases h
    · next hr => cases h; exact .inr (.inr ⟨off, bytes, e, rfl, refusedTransaction_none.1 hr, rfl⟩)
  | assign x e => cases h; exact .inl ⟨_, rfl, rfl, fun hk => insert_rises hk _ _⟩
  | branch e l =>
    change (if _ then _ else _) = _ at h
    split at h
    · exact .inl (hgoto l h)
    · cases h; exact .inl ⟨_, rfl, rfl, id⟩
  | jump l => exact .inl (hgoto l h)
  | fits e =>
    change (if _ then _ else _) = _ at h
    split at h
    · cases h; exact .inl ⟨_, rfl, rfl, id⟩
    · cases h
  | halt => cases h; exact .inl ⟨_, rfl, rfl, id⟩

/-- Everything the host's turn can do. -/
theorem hostMove_cases {t : State} (h : hostMove s = .next t) :
    t = s ∨ ∃ line, s.host.halted = false ∧ s.host.prog[s.host.pos]? = some line ∧ hostLine line s = .next t := by
  unfold hostMove at h
  split at h
  · cases h; exact .inl rfl
  · next hh =>
    split at h
    · next line hl => exact .inr ⟨line, by simpa using hh, hl, h⟩
    · cases h; exact .inl rfl

/-- The host's turn is refused only by one of its lines. -/
theorem hostMove_refused {why : Refusal} (h : hostMove s = .refused why) :
    ∃ line, s.host.halted = false ∧ s.host.prog[s.host.pos]? = some line ∧ hostLine line s = .refused why := by
  unfold hostMove at h
  split at h
  · cases h
  · next hh =>
    split at h
    · next line hl => exact ⟨line, by simpa using hh, hl, h⟩
    · cases h

end Sys2Proof.Machine
end

