-- ==== Sys2Proof/Laws/PerInstr.lean ====
section
/-! SUPPORT. Statements for all commands, one lemma per constructor of Instr. -/

namespace Sys2Proof.Laws.CommandWord

/-- A command's word: it is well-formed, its reserved bits are 0, it decodes to the command as a word, as bytes and as a
table word (30_encoding.md R67, R71, R73). -/
def Statement (i : Instr) : Prop :=
  i.wellFormed = true ∧ rsvdField (encode i) = 0 ∧ decode (encode i) = .legal i ∧
  decodeBytes (encodeBytes i) = (.legal i, []) ∧ decodeTableWord 32 (encode i).toNat = some i

theorem gcd : Statement .gcd := by unfold Statement; decide
theorem modinv : Statement .modinv := by unfold Statement; decide
theorem modpow : Statement .modpow := by unfold Statement; decide
theorem map : Statement .map := by unfold Statement; decide

end Sys2Proof.Laws.CommandWord
end

