-- ==== Sys2Proof/Laws/Step.lean ====
section
/-! SUPPORT. What one step can do, said once, and the invariant under each shared operation. -/

namespace Sys2Proof.Machine

variable {s : State}

/-- A step is the engine's completion, the host's turn, or a reset, of the state with that event taken off the order. -/
theorem step_cases (s : State) :
    (nextMover s = .engine ∧ step s = engineComplete s.popMove) ∨
    (nextMover s = .host ∧ step s = hostMove s.popMove) ∨
    (nextMover s = .reset ∧ step s = .next s.popMove.resetBlock) := by
  unfold step makeMove
  cases nextMover s <;> simp

/-- A host write changes neither the host nor the configuration, nor the model's own fields. -/
theorem hostWrite_frame (s : State) (off : Nat) (v : Word) :
    (s.hostWrite off v).host = s.host ∧ (s.hostWrite off v).cfg = s.cfg ∧ (s.hostWrite off v).sched = s.sched ∧
    (s.hostWrite off v).draws = s.draws ∧ (s.hostWrite off v).r = s.r ∧ (s.hostWrite off v).errcode = s.errcode := by
  rcases hostWrite_cases s off v with he | ⟨-, he⟩ | ⟨-, he⟩ | ⟨-, -, he⟩ | ⟨-, he⟩ | ⟨x, j, -, -, he⟩ |
    ⟨k, -, -, -, he⟩ | ⟨-, -, he⟩ <;> rw [he] <;> simp

/-- Everything a step can do: a reset; a completion; a host move that leaves the block alone; or one host write. -/
theorem step_next_cases {t : State} (h : step s = .next t) :
    (nextMover s = .reset ∧ t = s.popMove.resetBlock) ∨
    (nextMover s = .engine ∧ engineComplete s.popMove = .next t) ∨
    (nextMover s = .host ∧ ∃ hst n, t = { s.popMove with host := hst, draws := n } ∧ hst.prog = s.host.prog) ∨
    (nextMover s = .host ∧ ∃ off bytes e, s.host.prog[s.host.pos]? = some (.wr off bytes e) ∧
      transactionWellFormed off bytes = true ∧
      t = (s.popMove.hostWrite off (busValue (e.eval s.host))).advance) := by
  rcases step_cases s with ⟨hm, he⟩ | ⟨hm, he⟩ | ⟨hm, he⟩ <;> rw [he] at h
  · exact .inr (.inl ⟨hm, h⟩)
  · rcases hostMove_cases h with rfl | ⟨line, -, hline, hl⟩
    · exact .inr (.inr (.inl ⟨hm, s.host, s.draws, rfl, rfl⟩))
    · rcases hostLine_cases hl with ⟨hst, rfl, hprog, -⟩ | ⟨x, off, bytes, -, -, rfl⟩ | ⟨off, bytes, e, rfl, hwf, rfl⟩
      · exact .inr (.inr (.inl ⟨hm, hst, s.draws, rfl, hprog⟩))
      · obtain ⟨n, hn⟩ := hostRead_state s.popMove off
        rw [hn]
        exact .inr (.inr (.inl ⟨hm, _, n, rfl, rfl⟩))
      · exact .inr (.inr (.inr ⟨hm, off, bytes, e, hline, hwf, rfl⟩))
  · cases h; exact .inl ⟨hm, rfl⟩

/-- The engine never stops: its turn always answers a next state. -/
theorem engineComplete_next (s : State) : ∃ t, engineComplete s = .next t := by
  rcases engineComplete_cases s with ⟨-, h⟩ | ⟨p, -, ⟨_, -, h⟩ | ⟨_, -, -, h⟩ | ⟨-, -, -, h⟩⟩ <;> exact ⟨_, h⟩

/-- A step is refused only in the host's turn, by the line at the host's position. -/
theorem step_refused {why : Refusal} (h : step s = .refused why) :
    nextMover s = .host ∧ s.host.halted = false ∧
      ∃ line, s.host.prog[s.host.pos]? = some line ∧ hostLine line s.popMove = .refused why := by
  rcases step_cases s with ⟨-, he⟩ | ⟨hm, he⟩ | ⟨-, he⟩ <;> rw [he] at h
  · obtain ⟨t, ht⟩ := engineComplete_next s.popMove; rw [ht] at h; cases h
  · obtain ⟨line, hh, hl, hr⟩ := hostMove_refused h; exact ⟨hm, hh, line, hl, hr⟩
  · cases h

/-- A step takes one event off the order. -/
theorem step_sched {t : State} (h : step s = .next t) : t.sched = s.sched.tail := by
  rcases step_next_cases h with ⟨-, rfl⟩ | ⟨-, he⟩ | ⟨-, hst, n, rfl, -⟩ | ⟨-, off, b, e, -, -, rfl⟩
  · rfl
  · rcases engineComplete_cases s.popMove with ⟨-, h1⟩ | ⟨p, -, ⟨c, -, h1⟩ | ⟨v, -, -, h1⟩ | ⟨-, -, -, h1⟩⟩ <;>
      rw [h1] at he <;> cases he <;> rfl
  · rfl
  · simp [hostWrite_frame]

/-- With a command in flight the engine moves when the order says so, and when no order is left (log 6). -/
theorem nextMover_engine {p : Pending} (hs : s.sched.head? = some .engine ∨ s.sched = []) (hp : s.pend = some p) :
    nextMover s = .engine := by
  unfold nextMover
  rcases hs with hs | hs
  · cases h : s.sched with
    | nil => simp [h] at hs
    | cons who rest => simpa [h] using hs
  · simp [hs, defaultMover, hp]

/-! ### Runs of the machine -/

theorem run_of_next {M : Host.Core} {n : Nat} {s t : M.State} (h : M.step s = .next t) :
    M.run (n + 1) s = M.run n t := by simp only [Host.Core.run, h]

theorem run_of_fault {M : Host.Core} {n : Nat} {s : M.State} {f : M.Fault} (h : M.step s = .fault f) :
    M.run (n + 1) s = .fault f := by simp only [Host.Core.run, h]

theorem run_of_refused {M : Host.Core} {n : Nat} {s : M.State} {why : M.Refusal} (h : M.step s = .refused why) :
    M.run (n + 1) s = .refused why := by simp only [Host.Core.run, h]

/-! ### The invariant under each shared operation -/

theorem ErrorCode.toByte_le (code : ErrorCode) : code.toByte.toNat ≤ 4 := by cases code <;> decide

theorem ErrorCode.isError_toByte {code : ErrorCode} (h : code.isError = true) : code.toByte ≠ 0#8 := by
  cases code <;> first | decide | cases h

theorem StateInv.complete (h : StateInv s) (code : ErrorCode) : StateInv (s.complete code) :=
  { h with
    pendFits := by simp
    busyIff := rfl
    handshake := by simp
    codeExists := code.toByte_le
    errCode := ErrorCode.isError_toByte }

theorem StateInv.withR (h : StateInv s) {v : Nat} (hv : v < 2 ^ s.cfg.width) : StateInv { s with r := v } := { h with rFits := hv }

theorem StateInv.withElem (h : StateInv s) {mem : Memory} (hwf : Memory.wf mem) (hin : Memory.InBuffer s.cfg mem)
    (hwhole : Memory.WholeWords mem) : StateInv { s with elem := mem } :=
  { h with memWf := hwf, memIn := hin, memWhole := hwhole }

theorem StateInv.accept (h : StateInv s) (v : Word) : StateInv (s.accept v) :=
  { h with
    pendFits := by
      intro p hp
      simp only [State.accept_pend, Option.some.injEq] at hp
      subst hp
      exact ⟨h.aFits, h.bFits, h.eFits, h.mFits⟩
    busyIff := rfl
    handshake := fun _ => ⟨rfl, rfl⟩
    errCode := by simp }

theorem StateInv.writeStatus (h : StateInv s) (v : Word) : StateInv (s.writeStatus v) :=
  { h with
    handshake := fun hb => by
      obtain ⟨hd, he⟩ := h.handshake hb
      simp [clearByOne, hd, he]
    errCode := fun he => h.errCode (by
      simp only [State.writeStatus_err, clearByOne, Bool.and_eq_true] at he; exact he.1) }

theorem StateInv.setOperand (h : StateInv s) (x : Operand) {v : Nat} (hv : v < 2 ^ s.cfg.width) : StateInv (s.setOperand x v) := by
  cases x
  · exact { h with aFits := hv }
  · exact { h with bFits := hv }
  · exact { h with eFits := hv }
  · exact { h with mFits := hv }

theorem StateInv.operandFits (h : StateInv s) (x : Operand) : s.operand x < 2 ^ s.cfg.width := by
  cases x
  · exact h.aFits
  · exact h.bFits
  · exact h.eFits
  · exact h.mFits

/-- The engine's own element writes keep the buffer's form. -/
theorem StateInv.withMap (h : StateInv s) {e m n : Nat} (hn : n ≤ s.cfg.depth) :
    StateInv { s with elem := mapLanes s.cfg.nw e m s.elem n } :=
  h.withElem (mapLanes_wf h.memWf n) (mapLanes_inBuffer h.memIn n hn) (mapLanes_whole h.memWhole n)

theorem StateInv.hostWrite (h : StateInv s) (off : Nat) (v : Word) : StateInv (s.hostWrite off v) := by
  rcases hostWrite_cases s off v with he | ⟨-, he⟩ | ⟨-, he⟩ | ⟨-, -, he⟩ | ⟨-, he⟩ | ⟨x, j, -, hj, he⟩ |
    ⟨k, -, hk, -, he⟩ | ⟨-, -, he⟩ <;> rw [he]
  · exact h
  · exact { h with }
  · exact h.writeStatus v
  · exact h.accept v
  · exact { h with }
  · exact h.setOperand x (setWordAt_lt v (h.operandFits x) hj)
  · exact h.withElem (writeWord_wf h.memWf _ _) (writeWord_inBuffer h.memIn hk v) (writeWord_whole h.memWhole k v)
  · exact { h with }

end Sys2Proof.Machine
end

