-- ==== Sys2Proof/Tests/Slice0.lean ====
section
/-! SUPPORT. The model's own tests. Expected results come from 95_test_vectors.md (the vector is named) or from the rule
named; then the smoke test of the well-formedness checks, and, for every statement with hypotheses, a witness that meets
them. -/

namespace Sys2Proof.Tests

open Sys2Proof.Machine

/-! ### Helpers -/

/-- A block (NW = 2, DEPTH = 16) with a command accepted on these operands. -/
def inFlight (cmd : Word) (a b e m : Nat) (len : Word) : State :=
  State.accept { State.reset with a := a, b := b, e := e, m := m, len := len } cmd

/-- The element buffer holding these values from element 0 on (NW = 2). -/
def elements : List Nat → Nat → Memory
  | [], _ => []
  | v :: rest, i => writeElem 2 (elements rest (i + 1)) i v

/-- The same block with a host program and an order of events. -/
def running (s : State) (prog : List Line) (sched : List Move) : State := s.load prog sched

/-- A field of the next state. -/
def after {α : Type} (o : Host.Outcome State Fault Refusal) (f : State → α) : Option α :=
  match o with
  | .next s => some (f s)
  | .fault _ => none
  | .refused _ => none

/-- Why a step was refused. -/
def refusal (o : Host.Outcome State Fault Refusal) : Option Refusal :=
  match o with
  | .refused why => some why
  | .next _ => none
  | .fault _ => none

/-! ### Decoding: words written out from 30_encoding.md R67, R71 -/

theorem test_decode_gcd : decode 0b0000_0000_0000_0000_0000_0000_0000_0001#32 = .legal .gcd := by decide
theorem test_decode_modinv : decode 0b0000_0000_0000_0000_0000_0000_0000_0010#32 = .legal .modinv := by decide
theorem test_decode_modpow : decode 0b0000_0000_0000_0000_0000_0000_0000_0011#32 = .legal .modpow := by decide
theorem test_decode_map : decode 0b0000_0000_0000_0000_0000_0000_0000_0100#32 = .legal .map := by decide
/-- V-DEC1, V-DEC6, V-DEC7. -/
theorem test_decode_illegal_op :
    decode 0x00000000#32 = .illegal .undefinedOp ∧ decode 0x00000005#32 = .illegal .undefinedOp ∧
    decode 0x0000000F#32 = .illegal .undefinedOp := by decide
/-- V-DEC8 to V-DEC11. -/
theorem test_decode_reserved_bits :
    decode 0x00000010#32 = .illegal .reservedNotZero ∧ decode 0x00000011#32 = .illegal .reservedNotZero ∧
    decode 0x80000003#32 = .illegal .reservedNotZero ∧ decode 0xFFFFFFFF#32 = .illegal .reservedNotZero := by decide
/-- Little-endian bytes (20_memory.md R45), and too few of them. -/
theorem test_decode_bytes :
    decodeBytes [0x03#8, 0x00#8, 0x00#8, 0x00#8, 0xAA#8] = (.legal .modpow, [0xAA#8]) ∧
    (decodeBytes [0x03#8, 0x00#8, 0x00#8]).1 = .illegal .truncated := by decide
theorem test_decode_table_word :
    decodeTableWord 32 4 = some .map ∧ decodeTableWord 32 0 = none ∧ decodeTableWord 32 0x13 = none := by decide

/-! ### Well-formedness: each check refuses an ill-formed term -/

theorem test_wf_command : Instr.wellFormed .map = true := by decide
theorem test_wf_params_refuses :
    ¬ Params.valid ⟨0, 1, 0⟩ ∧ ¬ Params.valid ⟨1025, 1, 0⟩ ∧ ¬ Params.valid ⟨1, 0, 0⟩ ∧ ¬ Params.valid ⟨1, 65536, 0⟩ ∧
    ¬ Params.valid ⟨5, 65535, 0⟩ ∧ Params.valid ⟨4, 65535, 0⟩ ∧ Params.valid ⟨1024, 256, 0⟩ := by decide
theorem test_wf_transaction_refuses :
    transactionWellFormed 0x000002 4 = false ∧ transactionWellFormed 0x000000 2 = false ∧
    transactionWellFormed 0x200000 4 = false ∧ transactionWellFormed 0x1FFFFC 4 = true := by decide
theorem test_wf_program_refuses :
    programWellFormed [.jump 1] = false ∧ programWellFormed [.branch (.lit 1) 1] = false ∧
    programWellFormed [.label 1, .label 1] = false ∧ programWellFormed [.rd 0 3 4] = false ∧
    programWellFormed [.wr 0x10 2 (.lit 1)] = false ∧
    programWellFormed ([.label 7] ++ cmdGcd ++ wait 0 1 ++ [.jump 7]) = true := by decide

/-! ### The commands, one completion step each -/

/-- V-GCD4. -/
theorem test_gcd : after (step (inFlight 1#32 48 18 0 0 0)) (fun s => (s.r, s.statusWord, s.errcode)) =
    some (6, 0x2#32, 0#8) := by decide +kernel
/-- V-GCD11: W = 64. -/
theorem test_gcd_wide : after (step (inFlight 1#32 0xFFFFFFFFFFFFFFFF 0x0000000100000001 0 0 0))
    (fun s => (wordAt s.r 0, wordAt s.r 1)) = some (1#32, 1#32) := by decide +kernel
/-- V-INV14. -/
theorem test_modinv : after (step (inFlight 2#32 0x0000000200000007 0 0 0x1FFFFFFFFFFFFFFF 0))
    (fun s => (s.r, s.statusWord, s.errcode)) = some (0x187878785A5A5A5A, 0x2#32, 0#8) := by decide +kernel
/-- V-INV2, V-INV5: the two errors. -/
theorem test_modinv_errors :
    after (step (inFlight 2#32 3 0 0 8640 0)) (fun s => (s.r, s.statusWord, s.errcode)) = some (0, 0x6#32, 1#8) ∧
    after (step (inFlight 2#32 1 0 0 0 0)) (fun s => (s.r, s.statusWord, s.errcode)) = some (0, 0x6#32, 2#8) := by
  decide +kernel
/-- V-POW14. -/
theorem test_modpow : after (step (inFlight 3#32 0x0000010000000005 0 65537 0x1FFFFFFFFFFFFFFF 0))
    (fun s => (s.r, s.errcode)) = some (0x16F24370DDABE26E, 0#8) := by decide +kernel
/-- V-POW1, V-POW2, V-POW11: 0 ^ 0, modulus 1, modulus 0. -/
theorem test_modpow_corners :
    after (step (inFlight 3#32 0 0 0 5 0)) (fun s => (s.r, s.errcode)) = some (1, 0#8) ∧
    after (step (inFlight 3#32 0 0 0 1 0)) (fun s => (s.r, s.errcode)) = some (0, 0#8) ∧
    after (step (inFlight 3#32 42 0 7 0 0)) (fun s => (s.r, s.errcode)) = some (0, 2#8) := by decide +kernel
/-- V-MAP7: E' = 0, the element beyond LEN' unchanged. -/
theorem test_map : after (step { inFlight 4#32 0 0 0 10013 2#32 with elem := elements [72, 105, 33] 0 })
    (fun s => (readElem 2 s.elem 0, readElem 2 s.elem 1, readElem 2 s.elem 2, readElem 2 s.elem 3)) =
    some (some 1, some 1, some 33, none) := by decide +kernel
/-- V-MAP9 for a partly written element (decision D35), and V-MAP6: the priority of its errors. -/
theorem test_map_corners :
    after (step { inFlight 4#32 0 0 7 10013 1#32 with elem := writeWord [] (elemOff 0) 5#32 })
      (fun s => (s.elem, s.errcode)) = some ([], 0#8) ∧
    after (step (inFlight 4#32 0 0 7 0 17#32)) (fun s => s.errcode) = some 2#8 ∧
    after (step (inFlight 4#32 0 0 7 1 17#32)) (fun s => s.errcode) = some 4#8 := by decide +kernel
/-- V-DEC9: an illegal word. -/
theorem test_illegal_word : after (step (inFlight 0x11#32 48 18 0 0 0)) (fun s => (s.r, s.statusWord, s.errcode)) =
    some (0, 0x6#32, 3#8) := by decide +kernel

/-! ### The register window, V-BUS -/

/-- V-BUS1 to V-BUS5. -/
theorem test_bus_reads :
    ([0x0, 0x4, 0xC, 0x10, 0x1C].map fun off => State.reset.wordInWindow off) =
    [some 0x4D455850#32, some 0x00100002#32, some 0#32, some 0#32, some 0#32] := by decide
/-- V-BUS6: beyond the operand's width. -/
theorem test_bus_beyond_width :
    (State.reset.hostWrite 0x001008 0x12345678#32).a = 0 ∧ State.reset.wordInWindow 0x001008 = some 0#32 := by decide
/-- V-BUS8. -/
theorem test_bus_ctrl : (State.reset.hostWrite 0x8 0xFFFFFFFF#32).wordInWindow 0x8 = some 1#32 := by decide
/-- V-BUS10, V-BUS11: dropped writes. -/
theorem test_bus_overrun :
    ((inFlight 1#32 48 18 0 0 0).hostWrite 0x10 1#32).statusWord = 0x9#32 ∧
    ((inFlight 1#32 48 18 0 0 0).hostWrite 0x100000 5#32).elem = [] := by decide
/-- V-BUS14: write 1 to clear; V-BUS13: BUSY is read-only. -/
theorem test_bus_status :
    (State.hostWrite { State.reset with ovr := true, done := true } 0xC 0x8#32).statusWord = 0x2#32 ∧
    (State.hostWrite { State.reset with ovr := true, done := true } 0xC 0x1#32).statusWord = 0xA#32 := by decide
/-- R46, R47: the high word of A, and the low one kept (R129). -/
theorem test_bus_operand_word : (State.hostWrite { State.reset with a := 5 } 0x001004 2#32).a = 0x200000005 := by decide
/-- R45: byte 1 of ID behind BASE. -/
theorem test_platform_byte :
    State.platformByte (State.resetWith ⟨2, 16, 0x40000000⟩) 0x40000001 = some 0x58#8 ∧
    State.platformByte (State.resetWith ⟨2, 16, 0x40000000⟩) 0x40200000 = none := by decide

/-! ### The host -/

/-- R44, R41, R74: what the model refuses. -/
theorem test_host_refusals :
    refusal (step (running State.reset [.rd 0 0x2 4] [])) = some .misaligned ∧
    refusal (step (running State.reset [.wr 0x0 1 (.lit 0)] [])) = some .wrongWidth ∧
    refusal (step (running State.reset [rd 0 0x200000] [])) = some .outsideWindow ∧
    refusal (step (running State.reset [.jump 3] [])) = some .undefinedLabel ∧
    refusal (step (running State.reset [.fits (.lit (2 ^ 64))] [])) = some .valueDoesNotFit := by decide +kernel
/-- R74: a write of an expression, modulo 2^32, and a read into a variable. -/
theorem test_host_transactions :
    after (step (running State.reset [wr offLen (.lit (2 ^ 32 + 7))] [])) (fun s => (s.len, s.host.pos)) =
      some (7#32, 1) ∧
    after (step (running State.reset [rd 9 offParam] [])) (fun s => s.host.getVar 9) = some 0x00100002 := by
  decide +kernel
/-- R77: `ld` writes NW words from the least significant. -/
theorem test_ld_expansion :
    ld 2 .m (.lit 8640) = [.fits (.lit 8640), wr 0x004000 (wordExpr (.lit 8640) 0), wr 0x004004 (wordExpr (.lit 8640) 1)] ∧
    (wordExpr (.lit 0x500000003) 1).eval HostAgent.idle = 5 := by decide

/-! ### How the machine starts -/

/-- R122: nothing runs after reset; a reset drops a command in flight (R121). -/
theorem test_reset :
    after (step State.reset) (fun s => s == State.reset) = some true ∧
    after (step { inFlight 4#32 1 2 3 4 5#32 with sched := [.reset] }) (fun s => s == State.reset) = some true := by
  decide +kernel
/-- The word `withFetchWord` places is run by the very next step (log 8). -/
theorem test_fetch_word :
    after (step (State.withFetchWord { State.reset with a := 48, b := 18 } 32 1)) (fun s => s.r) = some 6 := by
  decide +kernel

/-! ### Witnesses: states and operands that meet the hypotheses of each statement, at the ends of their ranges -/

/-- A command in flight in a state that meets the invariant. -/
theorem inFlight_invariant (cmd : Word) {a b e m : Nat} (len : Word)
    (ha : a < 2 ^ 64) (hb : b < 2 ^ 64) (he : e < 2 ^ 64) (hm : m < 2 ^ 64) : StateInv (inFlight cmd a b e m len) :=
  StateInv.accept
    { params := show Params.standard.valid by decide
      aFits := ha, bFits := hb, eFits := he, mFits := hm
      rFits := Nat.two_pow_pos _
      pendFits := fun _ h => by cases h
      busyIff := rfl
      handshake := fun h => by cases h
      codeExists := by change (0 : Nat) ≤ 4; omega
      errCode := fun h => by cases h
      memWf := List.Pairwise.nil
      memIn := fun _ h => by cases h
      memWhole := fun _ _ _ h => by cases h
      varsRise := List.Pairwise.nil } cmd

/-- An idle block in a state that meets the invariant: the reset state with a command of no operands abandoned. -/
theorem reset_invariant : StateInv State.reset :=
  { params := show Params.standard.valid by decide
    aFits := Nat.two_pow_pos _, bFits := Nat.two_pow_pos _, eFits := Nat.two_pow_pos _, mFits := Nat.two_pow_pos _
    rFits := Nat.two_pow_pos _
    pendFits := fun _ h => by cases h
    busyIff := rfl
    handshake := fun h => by cases h
    codeExists := by change (0 : Nat) ≤ 4; omega
    errCode := fun h => by cases h
    memWf := List.Pairwise.nil
    memIn := fun _ h => by cases h
    memWhole := fun _ _ _ h => by cases h
    varsRise := List.Pairwise.nil }

theorem witness_DecodeAndEncodeAgree :
    Instr.wellFormed .map = true ∧ decode 0x00000004#32 = .legal .map ∧
    decodeBytes [4#8, 0#8, 0#8, 0#8, 9#8] = (.legal .map, [9#8]) := by decide

theorem witness_IllegalWordIsAcceptedAndFails :
    (¬ ((0x10#32 : Word).toNat / 16 = 0 ∧ (0x10#32 : Word).toNat % 16 ∈ [1, 2, 3, 4])) ∧
    (¬ ((0#32 : Word).toNat / 16 = 0 ∧ (0#32 : Word).toNat % 16 ∈ [1, 2, 3, 4])) ∧ State.reset.busy = false ∧
    (inFlight 0x10#32 1 2 3 4 5#32).pend.map (·.cmd) = some 0x10#32 := by decide

theorem witness_EngineStepRunsTheDecodedCommand :
    ∃ (s : State) (p : Pending),
      (s.sched.head? = some .engine ∨ s.sched = []) ∧ s.pend = some p ∧ decode p.cmd = .legal .modpow :=
  ⟨{ inFlight 3#32 42 0 7 10013 0 with sched := [.engine, .host] }, _, .inl rfl, rfl, by decide⟩

theorem witness_EngineStepRunsTheDecodedCommand_default :
    ∃ (s : State) (p : Pending), s.sched = [] ∧ s.pend = some p ∧ decode p.cmd = .legal .gcd :=
  ⟨inFlight 1#32 48 18 0 0 0, _, rfl, rfl, by decide⟩

/-- An illegal word in PEND, with the engine next by the order and by default (log 6). -/
theorem witness_EngineStepRunsTheDecodedCommand_illegal :
    (∃ (s : State) (p : Pending), s.sched.head? = some .engine ∧ s.pend = some p ∧
      decode p.cmd = .illegal .reservedNotZero) ∧
    ∃ (s : State) (p : Pending), s.sched = [] ∧ s.pend = some p ∧ decode p.cmd = .illegal .undefinedOp :=
  ⟨⟨{ inFlight 0x11#32 48 18 0 0 0 with sched := [.engine] }, _, rfl, rfl, by decide⟩,
    ⟨inFlight 5#32 48 18 0 0 0, _, rfl, rfl, by decide⟩⟩

theorem witness_HostStepRunsTheLine :
    ∃ (s : State) (line : Line), (s.sched.head? = some .host ∨ (s.sched = [] ∧ s.pend = none)) ∧
      s.host.halted = false ∧ s.host.prog[s.host.pos]? = some line :=
  ⟨running (inFlight 1#32 48 18 0 0 0) [rd 0 offStatus] [.host], _, .inl rfl, rfl, rfl⟩

theorem witness_HostStepRunsTheLine_default :
    ∃ s : State, (s.sched = [] ∧ s.pend = none) ∧ s.host.prog[s.host.pos]? = none := ⟨State.reset, ⟨rfl, rfl⟩, rfl⟩

theorem witness_HostStepRunsTheLine_halted : ∃ s : State, s.sched.head? = some .host ∧ s.host.halted = true :=
  ⟨State.haltHost (running State.reset [.halt] [.host]), rfl, rfl⟩

theorem witness_EngineHasNoStepWithoutACommand : ∃ s : State, s.pend = none ∧ s.sched.head? = some .engine :=
  ⟨running State.reset [] [.engine], rfl, rfl⟩

theorem witness_ResetEventSetsEveryResetValue :
    ∃ (s : State) (rest : List Move), s.sched = .reset :: rest ∧ s.busy = true :=
  ⟨{ inFlight 4#32 1 2 3 4 5#32 with sched := [.reset, .host] }, _, rfl, rfl⟩

theorem witness_ResetMeetsTheInvariant :
    Params.valid ⟨1, 1, 0⟩ ∧ Params.valid ⟨1, 65535, 0⟩ ∧ Params.valid ⟨1024, 256, 7⟩ := by decide

theorem witness_EveryStepKeepsTheInvariant : ∃ s t : State, StateInv s ∧ step s = .next t ∧ t.r = 6 :=
  ⟨inFlight 1#32 48 18 0 0 0, _, inFlight_invariant _ _ (by norm_num) (by norm_num) (by norm_num) (by norm_num), rfl, rfl⟩

theorem witness_BusyMeansACommandIsInFlight :
    ∃ t : State, Params.valid Params.standard ∧
      Sys2Proof.core.run 1 ((State.resetWith Params.standard).load cmdGcd [.host]) = .next t ∧ t.busy = true :=
  ⟨_, by decide, rfl, rfl⟩

theorem witness_BusyMeansACommandIsInFlight_engine : (inFlight 0#32 0 0 0 0 0).pend ≠ none ∧ State.reset.pend = none := by
  decide

theorem witness_GcdCompletesWithTheGcd : ∃ p, (inFlight 1#32 0 0 0 0 0).pend = some p := ⟨_, rfl⟩

theorem witness_ModinvCompletesWithTheInverse :
    (∃ p, (inFlight 2#32 0 0 0 0 0).pend = some p ∧ Nat.gcd p.a p.m ≠ 1) ∧
    (∃ p, (inFlight 2#32 1 0 0 0 0).pend = some p ∧ p.a = 1 ∧ p.m = 0) ∧
    (∃ p, (inFlight 2#32 0 0 0 1 0).pend = some p ∧ Nat.gcd p.a p.m = 1 ∧ ¬ (p.a = 1 ∧ p.m = 0)) :=
  ⟨⟨_, rfl, by decide⟩, ⟨_, rfl, rfl, rfl⟩, ⟨_, rfl, by decide, by decide⟩⟩

theorem witness_ModpowCompletesWithThePower :
    (∃ p, (inFlight 3#32 42 0 7 0 0).pend = some p ∧ p.m = 0) ∧
    (∃ p, (inFlight 3#32 0 0 0 1 0).pend = some p ∧ p.m ≠ 0 ∧ p.e = 0) :=
  ⟨⟨_, rfl, rfl⟩, ⟨_, rfl, by decide, rfl⟩⟩

theorem witness_ResultsNeedNoTruncation :
    ∃ (p : Pending) (t : State), (inFlight 3#32 42 0 7 10013 0).pend = some p ∧ p.Fits 64 ∧
      (inFlight 3#32 42 0 7 10013 0).r < 2 ^ 64 ∧ exec .modpow (inFlight 3#32 42 0 7 10013 0) = .next t ∧
      t.errcode = 0#8 :=
  ⟨_, _, rfl, ⟨by decide, by decide, by decide, by decide⟩, by decide, rfl, rfl⟩

theorem witness_ScalarCipherRoundTrip :
    Nat.Prime 17 ∧ Nat.Prime 19 ∧ 7 * 3703 % ((17 - 1) * (19 - 1) * 30) = 1 ∧ 42 < 17 * 19 * 31 ∧
    ∃ x x', (inFlight 3#32 42 0 7 10013 0).pend = some x ∧ (x.a, x.e, x.m) = (42, 7, 17 * 19 * 31) ∧
      (inFlight 3#32 1222 0 3703 10013 0).pend = some x' ∧ (x'.a, x'.e, x'.m) = (1222, 3703, 17 * 19 * 31) ∧
      after (exec .modpow (inFlight 3#32 42 0 7 10013 0)) (fun t => t.r) = some x'.a :=
  ⟨by norm_num, by norm_num, by norm_num, by norm_num, _, _, rfl, rfl, rfl, rfl, by decide +kernel⟩

theorem witness_ScalarCipherRoundTrip_repeated_prime :
    ∃ x x', (inFlight 3#32 2 0 7 124 0).pend = some x ∧ (x.a, x.e, x.m) = (2, 7, 124) ∧
      (inFlight 3#32 4 0 13 124 0).pend = some x' ∧ (x'.a, x'.e, x'.m) = (4, 13, 124) := ⟨_, _, rfl, rfl, rfl, rfl⟩

/-- Two elements defined, one not, one half written. -/
def mapState (m : Nat) (len : Word) : State :=
  { inFlight 4#32 0 0 7 m len with elem := writeWord (elements [72, 105] 0) (elemOff 6) 5#32 }

theorem witness_MapCompletesWithThePowers :
    ∃ p, (mapState 10013 16#32).cfg.valid ∧ (mapState 10013 16#32).pend = some p ∧ p.Fits 64 ∧ p.m ≠ 0 ∧
      p.len.toNat = (mapState 10013 16#32).cfg.depth ∧
      readElem 2 (mapState 10013 16#32).elem 0 = some 72 ∧ readElem 2 (mapState 10013 16#32).elem 3 = none ∧
      readElem 2 (mapState 10013 16#32).elem 15 = none :=
  ⟨_, by decide, rfl, ⟨by decide, by decide, by decide, by decide⟩, by decide, by decide, by decide +kernel,
    by decide +kernel, by decide +kernel⟩

theorem witness_MapCompletesWithThePowers_errors :
    (∃ p, (mapState 0 16#32).pend = some p ∧ p.Fits 64 ∧ p.m = 0) ∧
    (∃ p, (mapState 1 17#32).pend = some p ∧ p.Fits 64 ∧ p.m ≠ 0 ∧ (mapState 1 17#32).cfg.depth < p.len.toNat) :=
  ⟨⟨_, rfl, ⟨by decide, by decide, by decide, by decide⟩, rfl⟩,
    ⟨_, rfl, ⟨by decide, by decide, by decide, by decide⟩, by decide, by decide⟩⟩

theorem witness_MapErrorOrder :
    (∃ p, (inFlight 0x14#32 0 0 7 0 17#32).pend = some p ∧ decode p.cmd = .illegal .reservedNotZero) ∧
    (∃ p, (mapState 0 17#32).pend = some p ∧ decode p.cmd = .legal .map ∧ p.m = 0) ∧
    (∃ p, (mapState 1 17#32).pend = some p ∧ decode p.cmd = .legal .map ∧ p.m ≠ 0 ∧ 16 < p.len.toNat) ∧
    (∃ p, (mapState 1 16#32).pend = some p ∧ decode p.cmd = .legal .map ∧ p.m ≠ 0 ∧ p.len.toNat ≤ 16) :=
  ⟨⟨_, rfl, by decide⟩, ⟨_, rfl, by decide, rfl⟩, ⟨_, rfl, by decide, by decide, by decide⟩,
    ⟨_, rfl, by decide, by decide, by decide⟩⟩

theorem witness_MapOfAnEmptySequence : ∃ p, (mapState 1 0#32).pend = some p ∧ p.len = 0#32 ∧ 1 ≤ p.m :=
  ⟨_, rfl, rfl, by decide⟩

theorem witness_MapLanesAreIndependent :
    ∃ p p', (mapState 10013 2#32).pend = some p ∧
      State.pend { inFlight 4#32 9 8 7 10013 2#32 with elem := elements [72, 6, 7] 0 } = some p' ∧
      p'.e = p.e ∧ p'.m = p.m ∧ p'.len = p.len ∧
      ∀ j, j < 2 → readWord (mapState 10013 2#32).elem (elemOff (0 * 2 + j)) =
        readWord (elements [72, 6, 7] 0) (elemOff (0 * 2 + j)) :=
  ⟨_, _, rfl, rfl, rfl, rfl, rfl, by decide +kernel⟩

theorem witness_SequenceCipherRoundTrip :
    ∃ x, (mapState (17 * 19 * 31) 2#32).cfg.valid ∧ (mapState (17 * 19 * 31) 2#32).pend = some x ∧ x.Fits 64 ∧
      x.e = 7 ∧ x.m = 17 * 19 * 31 ∧ x.len.toNat ≤ 16 ∧ readElem 2 (mapState (17 * 19 * 31) 2#32).elem 1 = some 105 ∧
      ∃ t, exec .map (mapState (17 * 19 * 31) 2#32) = .next t ∧ ∃ x',
        State.pend { inFlight 4#32 0 0 3703 10013 2#32 with elem := t.elem } = some x' ∧ x'.e = 3703 ∧ x'.m = x.m ∧
        x'.len = x.len :=
  ⟨_, by decide, rfl, ⟨by decide, by decide, by decide, by decide⟩, rfl, rfl, by decide, by decide +kernel, _, rfl, _,
    rfl, rfl, rfl, rfl⟩

theorem witness_ErrorCodePriority :
    (inFlight 0x13#32 0 0 0 0 0).pend.map (fun p => decode p.cmd) = some (.illegal .reservedNotZero) ∧
    (inFlight 1#32 0 0 0 0 0).pend.map (fun p => decode p.cmd) = some (.legal .gcd) ∧
    (inFlight 2#32 0 0 0 0 0).pend.map (fun p => decode p.cmd) = some (.legal .modinv) ∧
    (inFlight 3#32 0 0 0 0 0).pend.map (fun p => decode p.cmd) = some (.legal .modpow) ∧
    (inFlight 4#32 0 0 0 0 0).pend.map (fun p => decode p.cmd) = some (.legal .map) := by decide

/-- EveryCompletionSetsTheStatus and FailedCommandLeavesOnlyItsCode: a command in flight that fails. -/
theorem witness_FailedCommandLeavesOnlyItsCode :
    ∃ p t, (inFlight 2#32 3 0 0 8640 0).pend = some p ∧ engineComplete (inFlight 2#32 3 0 0 8640 0) = .next t ∧
      t.errcode ≠ 0#8 ∧ ∃ u : State, u.cfg = (inFlight 2#32 3 0 0 8640 0).cfg ∧ u.pend = some p ∧ u.a = 99 :=
  ⟨_, _, rfl, rfl, by decide, { inFlight 2#32 3 0 0 8640 0 with a := 99 }, rfl, rfl, rfl⟩

theorem witness_EveryCompletionSetsTheStatus :
    ∃ p t, (inFlight 1#32 48 18 0 0 0).pend = some p ∧ engineComplete (inFlight 1#32 48 18 0 0 0) = .next t ∧
      t.r ≠ (inFlight 1#32 48 18 0 0 0).r := ⟨_, _, rfl, rfl, by decide⟩

/-- The two ways R and the buffer stay: a code that is not 0, and a word of another kind; and the bytes at both ends of a
MAP of two elements of two words. -/
theorem witness_EveryCompletionSetsTheStatus_frames :
    (∃ t, engineComplete (inFlight 3#32 42 0 7 0 0) = .next t ∧ t.errcode ≠ 0#8) ∧
    (∃ p, (inFlight 4#32 0 0 7 10013 0).pend = some p ∧
      decode p.cmd ∉ [Decoded.legal .gcd, .legal .modinv, .legal .modpow]) ∧
    (∃ p, (inFlight 1#32 48 18 0 0 0).pend = some p ∧ decode p.cmd ≠ .legal .map) ∧
    0x0FFFFF < elemBase ∧ elemOff ((2#32 : Word).toNat * (mapState 10013 2#32).cfg.nw) ≤ 0x100010 :=
  ⟨⟨_, rfl, by decide⟩, ⟨_, rfl, by decide⟩, ⟨_, rfl, by decide⟩, by decide, by decide⟩

theorem witness_CompletionComputesOnlyFromPendAndElem :
    ∃ s s' : State, s'.cfg = s.cfg ∧ s'.pend = s.pend ∧ s'.elem = s.elem ∧ s.pend ≠ none ∧ s'.a ≠ s.a :=
  ⟨inFlight 1#32 48 18 0 0 0, { inFlight 1#32 48 18 0 0 0 with a := 1, m := 2, ovr := true }, rfl, rfl, rfl, by decide,
    by decide⟩

theorem witness_HostCannotDisturbTheCommandInFlight :
    ∃ t : State, (inFlight 3#32 42 0 7 10013 0).busy = true ∧ (inFlight 3#32 42 0 7 10013 0).done = false ∧
      (inFlight 3#32 42 0 7 10013 0).err = false ∧
      hostLine (wr 0x001000 (.lit 5)) (inFlight 3#32 42 0 7 10013 0) = .next t := ⟨_, rfl, rfl, rfl, rfl⟩

theorem witness_AcceptedCommandCompletes :
    (running (inFlight 1#32 48 18 0 0 0) [rd 0 offStatus] [.host, .host]).pend ≠ none := by decide

/-- Each way it can end: a completion, a reset in the order, and a line that is refused. -/
theorem witness_AcceptedCommandCompletes_ends :
    (∃ t, Sys2Proof.core.run 3 (running (inFlight 1#32 48 18 0 0 0) [rd 0 offStatus] [.host, .host]) = .next t ∧
      t.pend = none ∧ t.done = true) ∧
    (∃ t, Sys2Proof.core.run 1 (running (inFlight 1#32 48 18 0 0 0) [] [.reset]) = .next t ∧
      t.pend = none ∧ t.done = false) ∧
    step (running (inFlight 1#32 48 18 0 0 0) [.jump 3] [.host]) = .refused .undefinedLabel :=
  ⟨⟨_, rfl, rfl, rfl⟩, ⟨_, rfl, rfl, rfl⟩, rfl⟩

theorem witness_ResultRegisterChangesOnlyAtSuccess :
    (∃ t, step (inFlight 1#32 48 18 0 0 0) = .next t ∧ t.r ≠ (inFlight 1#32 48 18 0 0 0).r) ∧
    (∃ t, step { State.reset with r := 5, sched := [.reset] } = .next t ∧ t.r ≠ 5) :=
  ⟨⟨_, rfl, by decide⟩, ⟨_, rfl, by decide⟩⟩

theorem witness_OperandsChangeOnlyByHostWriteOrReset :
    (∃ t, step (running State.reset [wr 0x004004 (.lit 9)] []) = .next t ∧
      t.operand .m ≠ (running State.reset [wr 0x004004 (.lit 9)] []).operand .m) ∧
    (∃ t, step { State.reset with b := 5, sched := [.reset] } = .next t ∧ t.operand .b ≠ 5) :=
  ⟨⟨_, rfl, by decide +kernel⟩, ⟨_, rfl, by decide⟩⟩

theorem witness_ErrcodeChangesOnlyAtCompletionOrReset :
    (∃ t, step (inFlight 0#32 0 0 0 0 0) = .next t ∧ t.errcode ≠ (inFlight 0#32 0 0 0 0 0).errcode) ∧
    (∃ t, step { State.reset with errcode := 2#8, sched := [.reset] } = .next t ∧ t.errcode ≠ 2#8) :=
  ⟨⟨_, rfl, by decide⟩, ⟨_, rfl, by decide⟩⟩

/-- An idle block with DONE and ERR set, as a failed command leaves it. -/
def failed : State := { State.reset with done := true, err := true, ovr := true, errcode := 2#8 }

theorem witness_DoneAndErrChangeOnlyAsStated :
    (∃ t, step (inFlight 0#32 0 0 0 0 0) = .next t ∧ t.done = true ∧ t.err = true) ∧
    (∃ t, step (running failed cmdGcd []) = .next t ∧ t.done = false ∧ t.err = false) ∧
    (∃ t, step (running failed [wr 0xC (.lit 6)] []) = .next t ∧ t.done = false ∧ t.err = false) ∧
    (∃ t, step (running failed [] [.reset]) = .next t ∧ t.done = false ∧ t.err = false) ∧
    (∃ t, step { inFlight 1#32 0 0 0 0 0 with err := true } = .next t ∧ t.err = false) :=
  ⟨⟨_, rfl, rfl, rfl⟩, ⟨_, rfl, by decide +kernel, by decide +kernel⟩, ⟨_, rfl, by decide +kernel, by decide +kernel⟩,
    ⟨_, rfl, rfl, rfl⟩, ⟨_, rfl, rfl⟩⟩

theorem witness_OverrunChangesOnlyAsStated :
    (∃ t, step (running (inFlight 1#32 0 0 0 0 0) cmdGcd [.host]) = .next t ∧ t.ovr = true) ∧
    (∃ t, step (running (inFlight 1#32 0 0 0 0 0) [wr (0x100000 + 4 * 31) (.lit 5)] [.host]) = .next t ∧ t.ovr = true) ∧
    (∃ t, step (running failed [wr 0xC (.lit 8)] []) = .next t ∧ t.ovr = false) ∧
    (∃ t, step (running failed [] [.reset]) = .next t ∧ t.ovr = false) :=
  ⟨⟨_, rfl, by decide +kernel⟩, ⟨_, rfl, by decide +kernel⟩, ⟨_, rfl, by decide +kernel⟩, ⟨_, rfl, rfl⟩⟩

theorem witness_ElementBufferRetention :
    (∃ t, step (mapState 10013 2#32) = .next t ∧ readByte t.elem 0x100000 ≠ readByte (mapState 10013 2#32).elem 0x100000) ∧
    (∃ t, step (running State.reset [wr (0x100000 + 4 * 31) (.lit 5)] []) = .next t ∧
      readByte t.elem (0x100000 + 4 * 31 + 3) ≠ none) ∧
    (∃ t, step (running { State.reset with elem := elements [72] 0 } [] [.reset]) = .next t ∧
      readByte t.elem 0x100000 ≠ some 72#8) :=
  ⟨⟨_, rfl, by decide +kernel⟩, ⟨_, rfl, by decide +kernel⟩, ⟨_, rfl, by decide +kernel⟩⟩

theorem witness_ControlRegistersChangeOnlyByHostWriteOrReset :
    (∃ t, step (running State.reset [wr 0x8 (.lit 1)] []) = .next t ∧ t.ie = true) ∧
    (∃ t, step (running State.reset [wr 0x18 (.lit 3)] []) = .next t ∧ t.len ≠ 0#32) ∧
    (∃ t, step (running { State.reset with ie := true, len := 3#32 } [] [.reset]) = .next t ∧ t.ie = false ∧ t.len = 0#32) :=
  ⟨⟨_, rfl, by decide +kernel⟩, ⟨_, rfl, by decide +kernel⟩, ⟨_, rfl, rfl, rfl⟩⟩

/-- A well-formed program; and lines that are each well-formed, with a label declared twice (log 14). -/
theorem witness_NothingStopsAWellFormedProgram :
    [[.label 7] ++ ld 2 .a (.lit 5) ++ cmdGcd ++ wait 0 1 ++ [.jump 7], [.label 7, .label 7, .jump 7]].all
      (fun prog => prog.all (Line.wellFormed (labelsOf prog))) = true ∧
    labelsDistinct (labelsOf [.label 7, .label 7, .jump 7]) = false := by decide

/-- A well-formed program that is refused: `ld` of 2^W. -/
theorem witness_NothingStopsAWellFormedProgram_fits :
    programWellFormed (ld 2 .a (.lit (2 ^ 64))) = true ∧
    step (running State.reset (ld 2 .a (.lit (2 ^ 64))) []) = .refused .valueDoesNotFit :=
  ⟨by decide, rfl⟩

theorem witness_TransactionOutsideTheWindowIsRefused :
    (0x200000 : Nat) % 4 = 0 ∧ 0x200000 ≤ (0x200000 : Nat) ∧ (0x1FFFFC : Nat) % 4 = 0 ∧ (0x1FFFFC : Nat) < 0x200000 := by
  decide

theorem witness_MisalignedOrNarrowTransactionIsRefused : (0x1FFFFF : Nat) % 4 ≠ 0 ∧ (3 : Nat) ≠ 4 := by decide

/-- Ranges of the window's clauses, for NW = 2 and DEPTH = 16: the last word of each kind and the first after it. -/
theorem witness_ReadFunctionOfTheWindow :
    State.reset.cfg.valid ∧ (1 < State.reset.cfg.nw) ∧ (31 < State.reset.cfg.depth * State.reset.cfg.nw) ∧
    (State.reset.cfg.nw ≤ 2 ∧ State.reset.cfg.nw ≤ 1023) ∧ (State.reset.cfg.depth * State.reset.cfg.nw ≤ 32) ∧
    readWord (elements [5] 0) (elemOff 1) = some 0#32 ∧
    ([0x1C, 0xFFC, 0x6000, 0xFFFFC, 0x1008, 0x1FFC, 0x5008, 0x5FFC, 0x100080, 0x1FFFFC].map (locate State.reset.cfg)) =
      List.replicate 10 .reserved ∧
    ([0x1004, 0x2004, 0x3004, 0x4004, 0x5004, 0x10007C].map (locate State.reset.cfg)) =
      [.operand .a 1, .operand .b 1, .operand .e 1, .operand .m 1, .result 1, .elem 31] := by decide +kernel

/-- A valid configuration at its largest, the last word of each kind, BUSY both ways. -/
theorem witness_WriteFunctionOfTheWindow :
    Params.valid ⟨1024, 256, 0⟩ ∧ 1023 < (Params.mk 1024 256 0).nw ∧ 262143 < (Params.mk 1024 256 0).elemWords ∧
    locate ⟨1024, 256, 0⟩ 0x1FFFFC = .elem 262143 ∧ locate ⟨1024, 256, 0⟩ 0x5FFC = .result 1023 ∧
    State.reset.busy = false ∧ (inFlight 1#32 0 0 0 0 0).busy = true := by decide +kernel

/-- The ends of the four reserved ranges, for NW = 2 and DEPTH = 16. -/
theorem witness_ReservedPlacesReadZeroAndIgnoreWrites :
    State.reset.cfg.valid ∧ 1 < State.reset.cfg.nw ∧
    [0x1C, 0xFFC, 0x6000, 0xFFFFC, 0x1008, 0x5FFC, 0x100080, 0x1FFFFC].all (fun off =>
      off % 4 = 0 ∧ off < 0x200000 ∧
      ((0x00001C ≤ off ∧ off < 0x001000) ∨ (0x006000 ≤ off ∧ off < 0x100000) ∨
       (0x001000 ≤ off ∧ off < 0x006000 ∧ State.reset.cfg.nw ≤ off % 0x1000 / 4) ∨
       0x100000 + 4 * (State.reset.cfg.depth * State.reset.cfg.nw) ≤ off)) = true := by decide +kernel

theorem witness_OperandWordReadsBackAsWritten :
    (inFlight 1#32 0 0 0 0 0).cfg.valid ∧ (1 < (inFlight 1#32 0 0 0 0 0).cfg.nw ∧ 0 < State.reset.cfg.nw) ∧
    State.reset.operand .m < 2 ^ State.reset.cfg.width := by decide +kernel

theorem witness_ResultRegisterIsReadOnly : State.reset.cfg.valid ∧ 1 < State.reset.cfg.nw := by decide

/-- The last word of the buffer, idle and written, idle, and busy. -/
theorem witness_ElementWordsOverTheBus :
    State.reset.cfg.valid ∧ 31 < State.reset.cfg.depth * State.reset.cfg.nw ∧ State.reset.busy = false ∧
    readWord (writeWord State.reset.elem (elemOff 31) 7#32) (elemOff 31) = some 7#32 ∧
    (inFlight 1#32 0 0 0 0 0).busy = true := by decide +kernel

/-- BUSY both ways. -/
theorem witness_CommandWriteIsAcceptedOrDropped :
    State.reset.busy = false ∧ (inFlight 1#32 0 0 0 0 0).busy = true := by decide

/-- BUSY both ways, a command in flight, words with the bits the clauses name, and the last word of the buffer. -/
theorem witness_InterruptIsALevelOfIeAndDone :
    State.reset.busy = false ∧ (inFlight 1#32 0 0 0 0 0).busy = true ∧ (inFlight 1#32 0 0 0 0 0).pend ≠ none ∧
    (0x2#32 : Word).getLsbD 1 = true ∧ (0xFFFFFFFE#32 : Word).getLsbD 0 = false ∧
    31 < (inFlight 1#32 0 0 0 0 0).cfg.depth * (inFlight 1#32 0 0 0 0 0).cfg.nw := by decide

theorem witness_WritesAreIdempotentExceptToCmd :
    (StateInv State.reset ∧ State.reset.busy = false) ∧
    ∃ s : State, StateInv s ∧ s.busy = true :=
  ⟨⟨reset_invariant, rfl⟩, _, inFlight_invariant 1#32 (a := 0) (b := 0) (e := 0) (m := 0) 0#32 (by norm_num) (by norm_num)
    (by norm_num) (by norm_num), rfl⟩

theorem witness_WindowIsLittleEndian :
    (0x1FFFFC : Nat) % 4 = 0 ∧ 0x1FFFFC < 0x200000 ∧ State.reset.wordInWindow 0x1FFFFC = some 0#32 ∧
    State.reset.wordInWindow 0 = some 0x4D455850#32 := by decide +kernel

theorem witness_WideValuesAreLeastSignificantWordFirst :
    (∃ s : State, StateInv s ∧ s.a = 2 ^ 64 - 1) ∧ readElem 2 (elements [2 ^ 64 - 1] 0) 0 = some (2 ^ 64 - 1) :=
  ⟨⟨_, inFlight_invariant 1#32 (a := 2 ^ 64 - 1) (b := 0) (e := 0) (m := 0) 0#32 (by norm_num) (by norm_num) (by norm_num)
    (by norm_num), rfl⟩, by decide +kernel⟩

theorem witness_StatusReadShowsCompletion :
    (StateInv State.reset ∧ (State.reset.hostRead 0xC).1.getLsbD 0 = false) ∧
    (StateInv (inFlight 1#32 0 0 0 0 0) ∧ ((inFlight 1#32 0 0 0 0 0).hostRead 0xC).1.getLsbD 0 = true) ∧
    ∃ s : State, StateInv s ∧ (s.hostRead 0xC).1.getLsbD 1 = true :=
  ⟨⟨reset_invariant, by decide⟩,
    ⟨inFlight_invariant _ _ (by norm_num) (by norm_num) (by norm_num) (by norm_num), by decide⟩,
    _, StateInv.complete (inFlight_invariant 1#32 (a := 0) (b := 0) (e := 0) (m := 0) 0#32 (by norm_num) (by norm_num)
      (by norm_num) (by norm_num)) .none, by decide⟩

theorem witness_HostLinesActAsTheNotationSays :
    (0x1FFFFC : Nat) % 4 = 0 ∧ 0 ≤ (Expr.lit 0).eval State.reset.host ∧ (Expr.lit 1).eval State.reset.host ≠ 0 ∧
    (Expr.lit 0).eval State.reset.host = 0 ∧ 7 ∈ labelsOf (running State.reset [.label 7] []).host.prog ∧
    8 ∉ labelsOf (running State.reset [.label 7] []).host.prog := by decide

/-- The line `fits` at both ends of [0, 2^W) and just outside them, for W = 64. -/
theorem witness_HostLinesActAsTheNotationSays_fits :
    (0 ≤ (Expr.lit 0).eval State.reset.host ∧ (Expr.lit 0).eval State.reset.host < 2 ^ State.reset.cfg.width) ∧
    (0 ≤ (Expr.lit (2 ^ 64 - 1)).eval State.reset.host ∧
      (Expr.lit (2 ^ 64 - 1)).eval State.reset.host < 2 ^ State.reset.cfg.width) ∧
    (Expr.lit (-1)).eval State.reset.host < 0 ∧
    2 ^ State.reset.cfg.width ≤ (Expr.lit (2 ^ 64)).eval State.reset.host := by decide +kernel

/-- Operands at the ends of the ranges of `div`, `mod`, `>>` and `&`. -/
theorem witness_HostOperatorsComputeAsTheNotationSays :
    (Expr.lit 0).eval HostAgent.idle = 0 ∧ (Expr.lit 1).eval HostAgent.idle = 1 ∧ (0 : Int) ≤ 0 ∧ (1 : Int) ≤ 1 ∧
    (Expr.lit 0).eval HostAgent.idle = ((0 : Nat) : Int) ∧ (Expr.lit 1).eval HostAgent.idle = ((1 : Nat) : Int) := by decide

/-- 7 div 2 and 7 mod 2, 6 >> 1, 6 & 3, and a comparison either way. -/
theorem test_host_operators :
    [BinOp.div, .mod].map (fun op => op.eval 7 2) = [3, 1] ∧ BinOp.shr.eval 6 1 = 3 ∧ BinOp.band.eval 6 3 = 2 ∧
    BinOp.lt.eval 1 2 = 1 ∧ BinOp.lt.eval 2 2 = 0 := by decide

end Sys2Proof.Tests
end

section
/-! PROOFS. Every accepted command completes (00_scope.md R7). No step of the machine faults; the engine's turn completes the
command in flight; the host's turn leaves a command in flight. So along the order of events given, up to its first engine
or reset event, only a refused host line ends the run, and after its end the engine moves (log 6). -/

namespace Sys2Proof.Machine

variable {s t : State}

/-! ### No step faults -/

theorem gotoLabel_ne_fault (l : Nat) (s : State) (f : Fault) : gotoLabel l s ≠ .fault f := by
  unfold gotoLabel; split <;> simp

theorem hostRd_ne_fault (x off bytes : Nat) (s : State) (f : Fault) : hostRd x off bytes s ≠ .fault f := by
  unfold hostRd; split <;> simp

theorem hostWr_ne_fault (off bytes : Nat) (e : Expr) (s : State) (f : Fault) : hostWr off bytes e s ≠ .fault f := by
  unfold hostWr; split <;> simp

theorem hostLine_ne_fault (line : Line) (s : State) (f : Fault) : hostLine line s ≠ .fault f := by
  cases line with
  | rd x off bytes => exact hostRd_ne_fault x off bytes s f
  | wr off bytes e => exact hostWr_ne_fault off bytes e s f
  | jump l => exact gotoLabel_ne_fault l s f
  | branch e l =>
    simp only [hostLine]
    split
    · exact gotoLabel_ne_fault l s f
    · simp
  | fits e => simp only [hostLine]; split <;> simp
  | label | assign | halt => simp [hostLine]

theorem hostMove_ne_fault (s : State) (f : Fault) : hostMove s ≠ .fault f := by
  unfold hostMove
  split
  · simp
  · split
    · exact hostLine_ne_fault _ s f
    · simp

/-- The block raises no faults (60_exceptions.md R108), and no host line does: a step answers a next state or is refused. -/
theorem step_ne_fault (s : State) (f : Fault) : step s ≠ .fault f := by
  rcases step_cases s with ⟨-, he⟩ | ⟨-, he⟩ | ⟨-, he⟩ <;> rw [he]
  · obtain ⟨t, ht⟩ := engineComplete_next s.popMove
    simp [ht]
  · exact hostMove_ne_fault s.popMove f
  · simp

theorem step_next_or_refused (s : State) : (∃ t, step s = .next t) ∨ ∃ why, step s = .refused why := by
  cases h : step s with
  | next t => exact .inl ⟨t, rfl⟩
  | fault f => exact absurd h (step_ne_fault s f)
  | refused why => exact .inr ⟨why, rfl⟩

/-! ### What each agent's turn does to a command in flight -/

/-- With a command in flight the engine's turn completes it, whatever its word (60_exceptions.md R99). -/
theorem step_engine_completes (hm : nextMover s = .engine) (hp : s.pend ≠ none) :
    ∃ t, step s = .next t ∧ t.pend = none ∧ t.done = true := by
  have hstep : step s = engineComplete s.popMove := by rw [step, hm]; rfl
  rw [hstep]
  rcases engineComplete_cases s.popMove with ⟨hnone, -⟩ | ⟨p, -, ⟨c, -, he⟩ | ⟨v, -, -, he⟩ | ⟨-, -, -, he⟩⟩
  · exact absurd hnone hp
  all_goals exact ⟨_, he, rfl, rfl⟩

/-- A host write leaves a command in flight: only an acceptance writes PEND, and it places a command. -/
theorem hostWrite_pend_ne_none (hp : s.pend ≠ none) (off : Nat) (v : Word) : (s.hostWrite off v).pend ≠ none := by
  rcases hostWrite_cases s off v with he | ⟨-, he⟩ | ⟨-, he⟩ | ⟨-, -, he⟩ | ⟨-, he⟩ | ⟨x, j, -, -, he⟩ |
    ⟨k, -, -, -, he⟩ | ⟨-, -, he⟩ <;> rw [he] <;> simp [hp]

theorem step_host_pend_ne_none (hm : nextMover s = .host) (hp : s.pend ≠ none) (h : step s = .next t) :
    t.pend ≠ none := by
  rcases step_next_cases h with ⟨hr, -⟩ | ⟨he, -⟩ | ⟨-, hst, n, rfl, -⟩ | ⟨-, off, b, e, -, -, rfl⟩
  · simp [hm] at hr
  · simp [hm] at he
  · exact hp
  · exact hostWrite_pend_ne_none (s := s.popMove) hp off _

theorem step_reset_pend (hm : nextMover s = .reset) : ∃ t, step s = .next t ∧ t.pend = none := by
  refine ⟨s.popMove.resetBlock, ?_, rfl⟩
  rw [step, hm]; rfl

/-! ### The two ends of a run with a command in flight -/

/-- At the latest one step after the order given is used up, no command is in flight, and DONE is set unless the order
holds a reset. -/
def RunCompletes (s : State) : Prop :=
  ∃ k t, k ≤ s.sched.length + 1 ∧ Sys2Proof.core.run k s = .next t ∧ t.pend = none ∧ (t.done = true ∨ .reset ∈ s.sched)

/-- Within the order given, one of the host's lines is refused in a step of its own. -/
def RunRefusesALine (s : State) : Prop :=
  ∃ n u line why, n < s.sched.length ∧ Sys2Proof.core.run n s = .next u ∧ s.sched[n]? = some .host ∧
    nextMover u = .host ∧ u.host.halted = false ∧ u.host.prog[u.host.pos]? = some line ∧
    hostLine line u.popMove = .refused why ∧ step u = .refused why

theorem core_run_one (h : step s = .next t) : Sys2Proof.core.run 1 s = .next t :=
  run_of_next (M := Sys2Proof.core) h

theorem runCompletes_of_step (h : step s = .next t) (hp : t.pend = none) (hd : t.done = true ∨ .reset ∈ s.sched) :
    RunCompletes s :=
  ⟨1, t, by omega, core_run_one h, hp, hd⟩

theorem runRefusesALine_of_step {why : Refusal} (hs : s.sched.head? = some .host) (h : step s = .refused why) :
    RunRefusesALine s := by
  obtain ⟨hm, hhalt, line, hline, hr⟩ := step_refused h
  have hpos : 0 < s.sched.length := List.length_pos_of_ne_nil fun hnil => by simp [hnil] at hs
  exact ⟨0, s, line, why, hpos, rfl, by rwa [← List.head?_eq_getElem?], hm, hhalt, hline, hr, h⟩

/-- The end of the run after a first step is the end of the whole run. -/
theorem RunCompletes.cons {who : Move} (hs : s.sched = who :: t.sched) (h : step s = .next t) (ht : RunCompletes t) :
    RunCompletes s := by
  obtain ⟨k, u, hk, hrun, hp, hd⟩ := ht
  refine ⟨k + 1, u, ?_, (run_of_next (M := Sys2Proof.core) h).trans hrun, hp, ?_⟩
  · simpa [hs] using hk
  · exact hd.imp_right fun hr => hs ▸ List.mem_cons_of_mem _ hr

theorem RunRefusesALine.cons {who : Move} (hs : s.sched = who :: t.sched) (h : step s = .next t)
    (ht : RunRefusesALine t) : RunRefusesALine s := by
  obtain ⟨n, u, line, why, hn, hrun, hhost, hrest⟩ := ht
  refine ⟨n + 1, u, line, why, ?_, (run_of_next (M := Sys2Proof.core) h).trans hrun, ?_, hrest⟩
  · simpa [hs] using hn
  · simpa [hs] using hhost

/-- By induction on the order of events given: its end and an engine event complete the command, a reset abandons it, and
a host event is refused or leaves it in flight with one event fewer to come. -/
theorem runCompletes_or_runRefusesALine {sched : List Move} (hs : s.sched = sched) (hp : s.pend ≠ none) :
    RunCompletes s ∨ RunRefusesALine s := by
  induction sched generalizing s with
  | nil =>
    obtain ⟨p, hsome⟩ := Option.ne_none_iff_exists'.1 hp
    obtain ⟨t, ht, htp, htd⟩ := step_engine_completes (nextMover_engine (.inr hs) hsome) hp
    exact .inl (runCompletes_of_step ht htp (.inl htd))
  | cons who rest ih =>
    have hm : nextMover s = who := by rw [nextMover, hs]
    cases who with
    | engine =>
      obtain ⟨t, ht, htp, htd⟩ := step_engine_completes hm hp
      exact .inl (runCompletes_of_step ht htp (.inl htd))
    | reset =>
      obtain ⟨t, ht, htp⟩ := step_reset_pend hm
      exact .inl (runCompletes_of_step ht htp (.inr (by simp [hs])))
    | host =>
      rcases step_next_or_refused s with ⟨t, ht⟩ | ⟨why, hr⟩
      · have hts : t.sched = rest := by rw [step_sched ht, hs]; rfl
        have hcons : s.sched = .host :: t.sched := by rw [hts, hs]
        exact (ih hts (step_host_pend_ne_none hm hp ht)).imp (.cons hcons ht) (.cons hcons ht)
      · exact .inr (runRefusesALine_of_step (by simp [hs]) hr)

/-- Settles O29, by induction on the order of events given. -/
theorem acceptedCommandCompletes : Obligations.AcceptedCommandCompletes :=
  fun _ hp => runCompletes_or_runRefusesALine rfl hp

end Sys2Proof.Machine
end

section
/-! PROOFS. What a completion, a host write and one step change and leave unchanged, field by field: the inversions from
which the statements about the block's state (10_state.md) follow. -/

namespace Sys2Proof.Machine

variable {s t : State}

/-! ### The engine's completion -/

/-- ERR at a completion, read off ERRCODE (60_exceptions.md R99). -/
theorem State.complete_err_eq (s : State) (code : ErrorCode) :
    (s.complete code).err = decide ((s.complete code).errcode ≠ 0#8) := by cases code <;> rfl

/-- Everything the engine's turn can have done: it passed, it failed with a code, it wrote R, or it wrote the elements. -/
theorem engineComplete_next_cases (h : engineComplete s = .next t) :
    (s.pend = none ∧ t = s) ∨
    ∃ p, s.pend = some p ∧
      ((∃ code, code ≠ ErrorCode.none ∧ t = s.complete code) ∨
       (decode p.cmd ∈ [Decoded.legal .gcd, .legal .modinv, .legal .modpow] ∧
          ∃ v, ResultFits p v ∧ t = State.complete { s with r := v } .none) ∨
       (decode p.cmd = .legal .map ∧ p.len.toNat ≤ s.cfg.depth ∧
          t = State.complete { s with elem := mapLanes s.cfg.nw p.e p.m s.elem p.len.toNat } .none)) := by
  rcases engineComplete_cases s with ⟨hp, he⟩ | ⟨p, hp, ⟨c, hc, he⟩ | ⟨v, ⟨i, hi, hd⟩, hv, he⟩ | ⟨hd, -, hl, he⟩⟩ <;>
    rw [he] at h <;> cases h
  · exact .inl ⟨hp, rfl⟩
  · exact .inr ⟨p, hp, .inl ⟨c, hc, rfl⟩⟩
  · refine .inr ⟨p, hp, .inr (.inl ⟨?_, v, hv, rfl⟩)⟩
    rw [hd]
    cases i with
    | map => exact absurd rfl hi
    | gcd | modinv | modpow => simp
  · exact .inr ⟨p, hp, .inr (.inr ⟨hd, hl, rfl⟩)⟩

/-- What the engine never changes (60_exceptions.md R99). -/
theorem engineComplete_frame (h : engineComplete s = .next t) :
    t.cfg = s.cfg ∧ (∀ x, t.operand x = s.operand x) ∧ t.len = s.len ∧ t.ie = s.ie ∧ t.ovr = s.ovr ∧
    t.host = s.host := by
  rcases engineComplete_next_cases h with ⟨-, rfl⟩ | ⟨p, -, ⟨c, -, rfl⟩ | ⟨-, v, -, rfl⟩ | ⟨-, -, rfl⟩⟩
  all_goals exact ⟨rfl, fun x => by cases x <;> rfl, rfl, rfl, rfl, rfl⟩

/-- The status after every completion, successful or failed (60_exceptions.md R99). -/
theorem engineComplete_status (hp : s.pend ≠ none) (h : engineComplete s = .next t) :
    t.pend = none ∧ t.done = true ∧ t.err = decide (t.errcode ≠ 0#8) := by
  rcases engineComplete_next_cases h with ⟨hnone, -⟩ | ⟨p, -, ⟨c, -, rfl⟩ | ⟨-, v, -, rfl⟩ | ⟨-, -, rfl⟩⟩
  · exact absurd hnone hp
  all_goals exact ⟨rfl, rfl, State.complete_err_eq _ _⟩

/-- A command's completion is the same function of its latched operands, the configuration and the element buffer in
every block: one code, one new buffer, and one new R or none (10_state.md R34). -/
theorem exec_determined (c : Params) (p : Pending) (mem : Memory) (i : Instr) :
    ∃ (code : ErrorCode) (v : Option Nat) (mem' : Memory), ∀ s : State, s.cfg = c → s.pend = some p → s.elem = mem →
      exec i s = .next (State.complete { s with r := v.getD s.r, elem := mem' } code) := by
  cases i with
  | gcd => exact ⟨.none, some (Nat.gcd p.a p.b), mem, fun s _ hp he => he ▸ execGcd_some hp⟩
  | modinv =>
    by_cases hg : Nat.gcd p.a p.m = 1
    · by_cases hm : p.m = 0
      · exact ⟨.zeroModulus, none, mem, fun s _ hp he => he ▸ execModinv_zeroModulus hp hg hm⟩
      · exact ⟨.none, some (modInv p.a p.m), mem, fun s _ hp he => he ▸ execModinv_some hp hg hm⟩
    · exact ⟨.noInverse, none, mem, fun s _ hp he => he ▸ execModinv_noInverse hp hg⟩
  | modpow =>
    by_cases hm : p.m = 0
    · exact ⟨.zeroModulus, none, mem, fun s _ hp he => he ▸ execModpow_zeroModulus hp hm⟩
    · exact ⟨.none, some (powMod p.a p.e p.m), mem, fun s _ hp he => he ▸ execModpow_some hp hm⟩
  | map =>
    by_cases hm : p.m = 0
    · exact ⟨.zeroModulus, none, mem, fun s _ hp he => he ▸ execMap_zeroModulus hp hm⟩
    · by_cases hl : p.len.toNat ≤ c.depth
      · exact ⟨.none, none, mapLanes c.nw p.e p.m mem p.len.toNat, fun s hc hp he => by
          subst hc he; exact execMap_some hp hm hl⟩
      · exact ⟨.lenRange, none, mem, fun s hc hp he => by
          subst hc he; exact execMap_lenRange hp hm (Nat.lt_of_not_le hl)⟩

/-- The same for the engine's whole completion step, on a legal or an illegal word. -/
theorem engineComplete_determined (c : Params) (p : Pending) (mem : Memory) :
    ∃ (code : ErrorCode) (v : Option Nat) (mem' : Memory), ∀ s : State, s.cfg = c → s.pend = some p → s.elem = mem →
      engineComplete s = .next (State.complete { s with r := v.getD s.r, elem := mem' } code) := by
  cases hd : decode p.cmd with
  | illegal why => exact ⟨.illegalCmd, none, mem, fun s _ hp he => he ▸ engineComplete_illegal hp hd⟩
  | legal i =>
    obtain ⟨code, v, mem', hexec⟩ := exec_determined c p mem i
    exact ⟨code, v, mem', fun s hc hp he => (engineComplete_legal hp hd).trans (hexec s hc hp he)⟩

/-! ### The offset a write came from, by its row of the register map -/

theorem aligned_of_transactionWellFormed {off bytes : Nat} (h : transactionWellFormed off bytes = true) :
    off % 4 = 0 := by
  simp only [transactionWellFormed, Bool.and_eq_true, beq_iff_eq] at h
  exact h.1.2

section Offsets
variable {c : Params} {off : Nat}

theorem offset_of_locate_ctrl (hal : off % 4 = 0) (h : locate c off = .ctrl) : off = 0x000008 := by
  simpa only [h] using locate_offset (c := c) hal

theorem offset_of_locate_status (hal : off % 4 = 0) (h : locate c off = .status) : off = 0x00000C := by
  simpa only [h] using locate_offset (c := c) hal

theorem offset_of_locate_cmd (hal : off % 4 = 0) (h : locate c off = .cmd) : off = 0x000010 := by
  simpa only [h] using locate_offset (c := c) hal

theorem offset_of_locate_len (hal : off % 4 = 0) (h : locate c off = .len) : off = 0x000018 := by
  simpa only [h] using locate_offset (c := c) hal

theorem offset_of_locate_operand {x : Operand} {j : Nat} (hal : off % 4 = 0) (h : locate c off = .operand x j) :
    off = offOperand x + 4 * j := by
  cases x <;> simpa only [h, offOperand] using locate_offset (c := c) hal

theorem offset_of_locate_elem {k : Nat} (hal : off % 4 = 0) (h : locate c off = .elem k) : off = elemOff k := by
  simpa only [h] using locate_offset (c := c) hal

end Offsets

/-! ### What a host write changes, field by field (20_memory.md R53) -/

section HostWrite
variable (s : State) (off : Nat) (v : Word)

@[simp] theorem hostWrite_cfg : (s.hostWrite off v).cfg = s.cfg := by
  obtain ⟨-, hcfg, -⟩ := hostWrite_frame s off v; exact hcfg

@[simp] theorem hostWrite_host : (s.hostWrite off v).host = s.host := by
  obtain ⟨hhost, -⟩ := hostWrite_frame s off v; exact hhost

@[simp] theorem hostWrite_r : (s.hostWrite off v).r = s.r := by
  obtain ⟨-, -, -, -, hr, -⟩ := hostWrite_frame s off v; exact hr

@[simp] theorem hostWrite_errcode : (s.hostWrite off v).errcode = s.errcode := by
  obtain ⟨-, -, -, -, -, herrcode⟩ := hostWrite_frame s off v; exact herrcode

theorem hostWrite_ie : (s.hostWrite off v).ie = s.ie ∨ locate s.cfg off = .ctrl := by
  rcases hostWrite_cases s off v with he | ⟨hl, he⟩ | ⟨-, he⟩ | ⟨-, -, he⟩ | ⟨-, he⟩ | ⟨x, j, -, -, he⟩ |
    ⟨k, -, -, -, he⟩ | ⟨-, -, he⟩ <;> simp [*]

theorem hostWrite_len : (s.hostWrite off v).len = s.len ∨ locate s.cfg off = .len := by
  rcases hostWrite_cases s off v with he | ⟨-, he⟩ | ⟨-, he⟩ | ⟨-, -, he⟩ | ⟨hl, he⟩ | ⟨x, j, -, -, he⟩ |
    ⟨k, -, -, -, he⟩ | ⟨-, -, he⟩ <;> simp [*]

theorem hostWrite_operand (x : Operand) :
    (s.hostWrite off v).operand x = s.operand x ∨ ∃ j, locate s.cfg off = .operand x j ∧ j < s.cfg.nw := by
  rcases hostWrite_cases s off v with he | ⟨-, he⟩ | ⟨-, he⟩ | ⟨-, -, he⟩ | ⟨-, he⟩ | ⟨y, j, hl, hj, he⟩ |
    ⟨k, -, -, -, he⟩ | ⟨-, -, he⟩
  on_goal 6 =>
    by_cases hxy : x = y
    · exact .inr ⟨j, hxy ▸ hl, hj⟩
    · exact .inl (by rw [he, State.operand_setOperand_other s hxy])
  all_goals exact .inl (by simp [he, State.operand])

theorem hostWrite_elem :
    (s.hostWrite off v).elem = s.elem ∨
    ∃ k, locate s.cfg off = .elem k ∧ k < s.cfg.elemWords ∧ s.busy = false ∧
      (s.hostWrite off v).elem = writeWord s.elem (elemOff k) v := by
  rcases hostWrite_cases s off v with he | ⟨-, he⟩ | ⟨-, he⟩ | ⟨-, -, he⟩ | ⟨-, he⟩ | ⟨x, j, -, -, he⟩ |
    ⟨k, hl, hk, hb, he⟩ | ⟨-, -, he⟩ <;> simp [*]

/-- OVR: cleared by ones of STATUS, set by a dropped write, and by no other write (10_state.md R25). -/
theorem hostWrite_ovr :
    (s.hostWrite off v).ovr = s.ovr ∨
    (locate s.cfg off = .status ∧ (s.hostWrite off v).ovr = (s.ovr && !v.getLsbD 3)) ∨
    (s.busy = true ∧ (locate s.cfg off = .cmd ∨ ∃ k, locate s.cfg off = .elem k ∧ k < s.cfg.elemWords) ∧
      (s.hostWrite off v).ovr = true) := by
  rcases hostWrite_cases s off v with he | ⟨-, he⟩ | ⟨hl, he⟩ | ⟨-, -, he⟩ | ⟨-, he⟩ | ⟨x, j, -, -, he⟩ |
    ⟨k, -, -, -, he⟩ | ⟨hb, hl, he⟩
  on_goal 8 => exact .inr (.inr ⟨hb, hl.imp_right fun ⟨k, hk⟩ => ⟨k, hk, locate_elem_lt hk⟩, he ▸ rfl⟩)
  on_goal 3 => exact .inr (.inl ⟨hl, he ▸ rfl⟩)
  all_goals exact .inl (by simp [he])

/-- DONE and ERR: cleared by an acceptance and by ones of STATUS, and changed by no other write (10_state.md R23, R24). -/
theorem hostWrite_done_err :
    ((s.hostWrite off v).done = s.done ∧ (s.hostWrite off v).err = s.err) ∨
    (locate s.cfg off = .cmd ∧ s.busy = false ∧ (s.hostWrite off v).busy = true ∧
      (s.hostWrite off v).done = false ∧ (s.hostWrite off v).err = false) ∨
    (locate s.cfg off = .status ∧ (s.hostWrite off v).done = (s.done && !v.getLsbD 1) ∧
      (s.hostWrite off v).err = (s.err && !v.getLsbD 2)) := by
  rcases hostWrite_cases s off v with he | ⟨-, he⟩ | ⟨hl, he⟩ | ⟨hl, hb, he⟩ | ⟨-, he⟩ | ⟨x, j, -, -, he⟩ |
    ⟨k, -, -, -, he⟩ | ⟨-, -, he⟩
  on_goal 4 => exact .inr (.inl ⟨hl, hb, he ▸ rfl, he ▸ rfl, he ▸ rfl⟩)
  on_goal 3 => exact .inr (.inr ⟨hl, he ▸ rfl, he ▸ rfl⟩)
  all_goals exact .inl (by simp [he])

/-- While a command is in flight no host write reaches it, nor R, the elements or its status (10_state.md R34). -/
theorem hostWrite_busy (hb : s.busy = true) :
    (s.hostWrite off v).pend = s.pend ∧ (s.hostWrite off v).elem = s.elem ∧ (s.hostWrite off v).busy = true ∧
    (s.done = false → (s.hostWrite off v).done = false) ∧ (s.err = false → (s.hostWrite off v).err = false) := by
  rcases hostWrite_cases s off v with he | ⟨-, he⟩ | ⟨-, he⟩ | ⟨-, hidle, -⟩ | ⟨-, he⟩ | ⟨x, j, -, -, he⟩ |
    ⟨k, -, -, hidle, -⟩ | ⟨-, -, he⟩ <;> simp_all [clearByOne]

/-! ### Writes of CMD and of the element buffer, by BUSY (10_state.md R35, 20_memory.md R52) -/

variable {s} in
theorem hostWrite_cmd_busy (hb : s.busy = true) : s.hostWrite 0x000010 v = s.dropWrite := if_pos hb

variable {s} in
theorem hostWrite_cmd_idle (hb : s.busy = false) : s.hostWrite 0x000010 v = s.accept v :=
  if_neg (Bool.not_eq_true _ ▸ hb)

variable {s} in
theorem hostWrite_elem_busy {k : Nat} (hb : s.busy = true) (hk : k < s.cfg.depth * s.cfg.nw) :
    s.hostWrite (0x100000 + 4 * k) v = s.dropWrite := by
  change s.hostWrite (elemOff k) v = _
  simp [State.hostWrite, locate_elem s.cfg hk, State.writeElemWord, hb]

end HostWrite

/-! ### What a step changes -/

theorem nextMover_of_head {who : Move} (h : s.sched.head? = some who) : nextMover s = who := by
  obtain ⟨rest, hs⟩ := List.head?_eq_some_iff.1 h
  rw [nextMover, hs]

theorem step_of_engine (hm : nextMover s = .engine) : step s = engineComplete s.popMove := by rw [step, hm]; rfl

/-- No step changes the configuration or the host's program. -/
theorem step_cfg_prog (h : step s = .next t) : t.cfg = s.cfg ∧ t.host.prog = s.host.prog := by
  rcases step_next_cases h with ⟨-, rfl⟩ | ⟨-, he⟩ | ⟨-, hst, n, rfl, hprog⟩ | ⟨-, off, b, e, -, -, rfl⟩
  · exact ⟨rfl, rfl⟩
  · obtain ⟨hcfg, -, -, -, -, hhost⟩ := engineComplete_frame he
    exact ⟨hcfg, congrArg HostAgent.prog hhost⟩
  · exact ⟨rfl, hprog⟩
  · simp

/-- What a step does to DONE and ERR: a reset clears them, a completion sets them by its code, a write of CMD while idle or
of STATUS clears them, and nothing else changes them (10_state.md R23, R24). -/
theorem step_done_err (h : step s = .next t) :
    (nextMover s = .reset ∧ t.done = false ∧ t.err = false) ∨
    (nextMover s = .engine ∧ s.pend ≠ none ∧ t.done = true ∧ t.err = decide (t.errcode ≠ 0#8)) ∨
    ((nextMover s = .engine → s.pend = none) ∧ t.done = s.done ∧ t.err = s.err) ∨
    (nextMover s = .host ∧ ∃ off bytes e, s.host.prog[s.host.pos]? = some (.wr off bytes e) ∧
      ((off = 0x000010 ∧ s.busy = false ∧ t.busy = true ∧ t.done = false ∧ t.err = false) ∨
       (off = 0x00000C ∧ t.done = (s.done && !(busValue (e.eval s.host)).getLsbD 1) ∧
        t.err = (s.err && !(busValue (e.eval s.host)).getLsbD 2)))) := by
  rcases step_next_cases h with ⟨hm, rfl⟩ | ⟨hm, he⟩ | ⟨hm, hst, n, rfl, -⟩ | ⟨hm, off, b, e, hline, hwf, rfl⟩
  · exact .inl ⟨hm, rfl, rfl⟩
  · by_cases hp : s.pend = none
    · rw [engineComplete_none (s := s.popMove) hp] at he
      cases he
      exact .inr (.inr (.inl ⟨fun _ => hp, rfl, rfl⟩))
    · obtain ⟨-, hd, herr⟩ := engineComplete_status (s := s.popMove) hp he
      exact .inr (.inl ⟨hm, hp, hd, herr⟩)
  · exact .inr (.inr (.inl ⟨by simp [hm], rfl, rfl⟩))
  · have hal := aligned_of_transactionWellFormed hwf
    rcases hostWrite_done_err s.popMove off (busValue (e.eval s.host)) with hsame | ⟨hl, hacc⟩ | ⟨hl, hclear⟩
    · exact .inr (.inr (.inl ⟨by simp [hm], hsame⟩))
    · exact .inr (.inr (.inr ⟨hm, off, b, e, hline, .inl ⟨offset_of_locate_cmd hal hl, hacc⟩⟩))
    · exact .inr (.inr (.inr ⟨hm, off, b, e, hline, .inr ⟨offset_of_locate_status hal hl, hclear⟩⟩))

/-- What a step does to OVR: a reset clears it, ones of STATUS clear it, a dropped write sets it, and nothing else changes
it (10_state.md R25). -/
theorem step_ovr (h : step s = .next t) :
    (nextMover s = .reset ∧ t.ovr = false) ∨
    t.ovr = s.ovr ∨
    (nextMover s = .host ∧ ∃ bytes e, s.host.prog[s.host.pos]? = some (.wr 0x00000C bytes e) ∧
      t.ovr = (s.ovr && !(busValue (e.eval s.host)).getLsbD 3)) ∨
    (nextMover s = .host ∧ s.busy = true ∧ ∃ off bytes e, s.host.prog[s.host.pos]? = some (.wr off bytes e) ∧
      (off = 0x000010 ∨ ∃ k, k < s.cfg.depth * s.cfg.nw ∧ off = 0x100000 + 4 * k) ∧ t.ovr = true) := by
  rcases step_next_cases h with ⟨hm, rfl⟩ | ⟨-, he⟩ | ⟨-, hst, n, rfl, -⟩ | ⟨hm, off, b, e, hline, hwf, rfl⟩
  · exact .inl ⟨hm, rfl⟩
  · obtain ⟨-, -, -, -, hovr, -⟩ := engineComplete_frame he
    exact .inr (.inl hovr)
  · exact .inr (.inl rfl)
  · have hal := aligned_of_transactionWellFormed hwf
    rcases hostWrite_ovr s.popMove off (busValue (e.eval s.host)) with hsame | ⟨hl, ho⟩ | ⟨hb, hl, ho⟩
    · exact .inr (.inl hsame)
    · obtain rfl := offset_of_locate_status hal hl
      exact .inr (.inr (.inl ⟨hm, b, e, hline, ho⟩))
    · refine .inr (.inr (.inr ⟨hm, hb, off, b, e, hline, ?_, ho⟩))
      exact hl.imp (offset_of_locate_cmd hal) fun ⟨k, hk, hlt⟩ => ⟨k, hlt, offset_of_locate_elem hal hk⟩

end Sys2Proof.Machine
end

section
/-! PROOFS. The invariant: every turn of every agent keeps it, so every step does, and every run from reset. -/

namespace Sys2Proof.Machine

variable {s t : State}

theorem StateInv.popMove (h : StateInv s) : StateInv s.popMove := { h with }

/-- A reset needs nothing of the block it resets: only the configuration and the host's variables stay. -/
theorem stateInv_resetBlock (hc : s.cfg.valid) (hv : KeysRise s.host.vars) : StateInv s.resetBlock where
  params := hc
  aFits := Nat.two_pow_pos _
  bFits := Nat.two_pow_pos _
  eFits := Nat.two_pow_pos _
  mFits := Nat.two_pow_pos _
  rFits := Nat.two_pow_pos _
  pendFits := by simp
  busyIff := rfl
  handshake := by simp
  codeExists := by simp
  errCode := by simp
  memWf := .nil
  memIn := fun _ h => by simp [readByte] at h
  memWhole := fun _ _ _ h => by simp [readByte] at h
  varsRise := hv

theorem stateInv_resetWith {c : Params} (hc : c.valid) : StateInv (State.resetWith c) :=
  stateInv_resetBlock (s := State.resetWith c) hc .nil

theorem StateInv.load (h : StateInv s) (prog : List Line) (sched : List Move) : StateInv (s.load prog sched) :=
  { h with varsRise := .nil }

theorem StateInv.engineComplete (h : StateInv s) (he : engineComplete s = .next t) : StateInv t := by
  rcases engineComplete_next_cases he with ⟨-, rfl⟩ | ⟨p, hp, ⟨c, -, rfl⟩ | ⟨-, v, hv, rfl⟩ | ⟨-, hl, rfl⟩⟩
  · exact h
  · exact h.complete c
  · exact (h.withR (hv _ (h.pendFits p hp))).complete .none
  · exact (h.withMap hl).complete .none

theorem StateInv.hostLine (h : StateInv s) {line : Line} (hl : hostLine line s = .next t) : StateInv t := by
  rcases hostLine_cases hl with ⟨hst, rfl, -, hrise⟩ | ⟨x, off, b, -, -, rfl⟩ | ⟨off, b, e, -, -, rfl⟩
  · exact { h with varsRise := hrise h.varsRise }
  · obtain ⟨n, hn⟩ := hostRead_state s off
    rw [hn]
    exact { h with varsRise := insert_rises h.varsRise _ _ }
  · exact { h.hostWrite off _ with }

theorem StateInv.step (h : StateInv s) (hs : step s = .next t) : StateInv t := by
  rcases step_cases s with ⟨-, he⟩ | ⟨-, he⟩ | ⟨-, he⟩ <;> rw [he] at hs
  · exact h.popMove.engineComplete hs
  · rcases hostMove_cases hs with rfl | ⟨line, -, -, hl⟩
    · exact h.popMove
    · exact h.popMove.hostLine hl
  · cases hs
    exact stateInv_resetBlock h.params h.varsRise

/-- The invariant holds along every run, by induction on the number of steps. -/
theorem StateInv.run {n : Nat} (h : StateInv s) (hr : Sys2Proof.core.run n s = .next t) : StateInv t := by
  induction n generalizing s with
  | zero => cases hr; exact h
  | succ n ih =>
    cases hs : Machine.step s with
    | next u => exact ih (h.step hs) ((run_of_next (M := Sys2Proof.core) hs).symm.trans hr)
    | fault f => cases (run_of_fault (M := Sys2Proof.core) hs).symm.trans hr
    | refused why => cases (run_of_refused (M := Sys2Proof.core) hs).symm.trans hr

/-- Settles O12: each agent's turn keeps the invariant. -/
theorem everyStepKeepsTheInvariant : Obligations.EveryStepKeepsTheInvariant := fun _ _ h hs =>
  ⟨h.step hs, (step_cfg_prog hs).1⟩

/-- Settles O13: the invariant's `busyIff` and `handshake`, along every run from reset. -/
theorem busyMeansACommandIsInFlight : Obligations.BusyMeansACommandIsInFlight := by
  refine ⟨fun c prog sched n t hc hr => ?_, fun s => ⟨fun hp => ?_, engineComplete_none⟩⟩
  · have ht : StateInv t := ((stateInv_resetWith hc).load prog sched).run hr
    refine ⟨?_, ht.handshake⟩
    rw [ht.busyIff, Option.isSome_iff_ne_none]
  · obtain ⟨t, ht⟩ := engineComplete_next s
    obtain ⟨hpend, hdone, -⟩ := engineComplete_status hp ht
    exact ⟨t, ht, hpend, hdone⟩

end Sys2Proof.Machine
end

section
/-! PROOFS. Who may change what (10_state.md R15 to R31), each over the four ways a step can go: a reset, the engine's turn,
a host move that leaves the block alone, one host write. -/

namespace Sys2Proof.Machine

/-- Settles O27: a completion is determined by the configuration, PEND and ELEM. -/
theorem completionComputesOnlyFromPendAndElem : Obligations.CompletionComputesOnlyFromPendAndElem := by
  intro s s' hcfg hpend helem hp
  obtain ⟨p, hsome⟩ := Option.ne_none_iff_exists'.1 hp
  obtain ⟨code, v, mem, hdet⟩ := engineComplete_determined s.cfg p s.elem
  refine ⟨_, _, hdet s rfl hsome rfl, hdet s' hcfg (hpend.trans hsome) helem, rfl, rfl, rfl, ?_⟩
  cases v with
  | none => exact .inr ⟨rfl, rfl⟩
  | some v => exact .inl rfl

/-- Settles O28: a line that writes leaves a block with BUSY = 1 as `hostWrite_busy` says; no other line touches the block. -/
theorem hostCannotDisturbTheCommandInFlight : Obligations.HostCannotDisturbTheCommandInFlight := by
  intro s t line hb hd he hl
  rcases hostLine_cases hl with ⟨hst, rfl, -, -⟩ | ⟨x, off, b, -, -, rfl⟩ | ⟨off, b, e, -, -, rfl⟩
  · exact ⟨rfl, rfl, rfl, hb, hd, he, rfl, rfl⟩
  · obtain ⟨n, hn⟩ := hostRead_state s off
    rw [hn]
    exact ⟨rfl, rfl, rfl, hb, hd, he, rfl, rfl⟩
  · obtain ⟨hpend, helem, hbusy, hdone, herr⟩ := hostWrite_busy s off (busValue (e.eval s.host)) hb
    exact ⟨hpend, helem, hostWrite_r .., hbusy, hdone hd, herr he, hostWrite_errcode .., hostWrite_cfg ..⟩

/-- Settles O30: of all a step can do, only a reset and a kernel command's success write R. -/
theorem resultRegisterChangesOnlyAtSuccess : Obligations.ResultRegisterChangesOnlyAtSuccess := by
  intro s t h hne
  rcases step_next_cases h with ⟨hm, -⟩ | ⟨hm, he⟩ | ⟨-, hst, n, rfl, -⟩ | ⟨-, off, b, e, -, -, rfl⟩
  · exact .inl hm
  · rcases engineComplete_next_cases he with ⟨-, rfl⟩ | ⟨p, hp, ⟨c, -, rfl⟩ | ⟨hd, v, -, rfl⟩ | ⟨-, -, rfl⟩⟩
    · exact absurd rfl hne
    · exact absurd rfl hne
    · exact .inr ⟨hm, rfl, p, hp, hd⟩
    · exact absurd rfl hne
  · exact absurd rfl hne
  · simp at hne

/-- Settles O31: the write's row of the register map says its offset. -/
theorem operandsChangeOnlyByHostWriteOrReset : Obligations.OperandsChangeOnlyByHostWriteOrReset := by
  intro s t x h hne
  rcases step_next_cases h with ⟨hm, -⟩ | ⟨-, he⟩ | ⟨-, hst, n, rfl, -⟩ | ⟨hm, off, b, e, hline, hwf, rfl⟩
  · exact .inl hm
  · obtain ⟨-, hsame, -⟩ := engineComplete_frame he
    simp [hsame] at hne
  · cases x <;> exact absurd rfl hne
  · rcases hostWrite_operand s.popMove off (busValue (e.eval s.host)) x with hsame | ⟨j, hl, hj⟩
    · simp [hsame] at hne
    · have hoff := offset_of_locate_operand (aligned_of_transactionWellFormed hwf) hl
      exact .inr ⟨hm, off, b, e, j, hline, hoff, hj⟩

/-- Settles O32: no host write changes ERRCODE, and the engine's turn only by a completion. -/
theorem errcodeChangesOnlyAtCompletionOrReset : Obligations.ErrcodeChangesOnlyAtCompletionOrReset := by
  refine ⟨fun s t h hne => ?_, fun s v => ⟨hostWrite_errcode s _ v, rfl, ?_⟩, fun _ => rfl⟩
  · rcases step_next_cases h with ⟨hm, -⟩ | ⟨hm, he⟩ | ⟨-, hst, n, rfl, -⟩ | ⟨-, off, b, e, -, -, rfl⟩
    · exact .inl hm
    · by_cases hp : s.pend = none
      · rw [engineComplete_none (s := s.popMove) hp] at he
        cases he
        exact absurd rfl hne
      · obtain ⟨-, hdone, -⟩ := engineComplete_status (s := s.popMove) hp he
        exact .inr ⟨hm, hp, hdone⟩
    · exact absurd rfl hne
    · simp at hne
  · rw [BitVec.ofNat_toNat]
    exact hostRead_of_some rfl

/-- Settles O33: each rise and fall of DONE and ERR is one of the cases of `step_done_err`. -/
theorem doneAndErrChangeOnlyAsStated : Obligations.DoneAndErrChangeOnlyAsStated := by
  refine ⟨fun s t h => ?_, fun s v => ⟨fun hb => ?_, rfl, rfl, rfl, rfl⟩⟩
  · rcases step_done_err h with ⟨hm, hd, he⟩ | ⟨hm, hp, hd, he⟩ | ⟨hidle, hd, he⟩ |
      ⟨hm, off, b, e, hline, ⟨rfl, hb, hb', hd, he⟩ | ⟨rfl, hd, he⟩⟩
    · simp [hm, hd, he]
    · simp [hm, hp, hd, he]
    · simp +contextual [hd, he, hidle]
    · simp [hm, hline, hb, hb', hd, he]
    · simp +contextual [hm, hline, hd, he]
  · simp [hostWrite_cmd_idle v hb]

/-- Settles O34: each rise and fall of OVR is one of the cases of `step_ovr`. -/
theorem overrunChangesOnlyAsStated : Obligations.OverrunChangesOnlyAsStated := by
  refine ⟨fun s t h => ?_, fun s v => hostWrite_cmd_busy v, fun s k v => hostWrite_elem_busy v,
    fun s v => ⟨rfl, rfl, fun hb => ?_, fun _ => ?_⟩⟩
  · rcases step_ovr h with ⟨hm, ho⟩ | ho | ⟨hm, b, e, hline, ho⟩ | ⟨hm, hb, off, b, e, hline, hoff, ho⟩
    · exact ⟨by simp [ho], fun _ _ => .inl hm⟩
    · simp +contextual [ho]
    · refine ⟨by simp +contextual [ho], fun hs ht => .inr ⟨hm, b, e, hline, ?_⟩⟩
      simpa [ho, hs] using ht
    · exact ⟨fun _ _ => ⟨hm, hb, off, b, e, hline, hoff⟩, by simp [ho]⟩
  · rw [hostWrite_cmd_idle v hb, State.accept_ovr]
  · obtain ⟨t, ht⟩ := engineComplete_next s
    obtain ⟨-, -, -, -, hovr, -⟩ := engineComplete_frame ht
    exact ⟨t, ht, hovr⟩

/-- Settles O35: MAP's lanes and a word write each leave every byte outside their own range. -/
theorem elementBufferRetention : Obligations.ElementBufferRetention := by
  intro s t q h hne
  rcases step_next_cases h with ⟨hm, -⟩ | ⟨hm, he⟩ | ⟨-, hst, n, rfl, -⟩ | ⟨hm, off, b, e, hline, hwf, rfl⟩
  · exact .inl hm
  · rcases engineComplete_next_cases he with ⟨-, rfl⟩ | ⟨p, hp, ⟨c, -, rfl⟩ | ⟨-, v, -, rfl⟩ | ⟨hd, -, rfl⟩⟩
    · exact absurd rfl hne
    · exact absurd rfl hne
    · exact absurd rfl hne
    · obtain ⟨hlow, hhigh⟩ := not_or.1 (mt (readByte_mapLanes_other _ _ _ _ _) hne)
      exact .inr (.inl ⟨hm, rfl, p, hp, hd, Nat.le_of_not_lt hlow, Nat.lt_of_not_le hhigh⟩)
  · exact absurd rfl hne
  · have hal := aligned_of_transactionWellFormed hwf
    rcases hostWrite_elem s.popMove off (busValue (e.eval s.host)) with hsame | ⟨k, hl, hk, hb, hw⟩
    · simp [hsame] at hne
    · obtain rfl := offset_of_locate_elem hal hl
      obtain ⟨hlow, hhigh⟩ : elemOff k ≤ q ∧ q < elemOff k + 4 := by
        by_contra hout
        simp [hw, readByte_writeWord, hout] at hne
      have hlast : elemOff k < 0x100000 + 4 * (s.cfg.depth * s.cfg.nw) := by
        simp only [Params.elemWords, State.popMove_cfg, elemOff, elemBase] at hk ⊢; omega
      exact .inr (.inr ⟨hm, hb, _, b, e, hline, hal, hlow, hhigh, hlast⟩)

/-- Settles O36: the engine's frame, and the write's row of the register map. -/
theorem controlRegistersChangeOnlyByHostWriteOrReset : Obligations.ControlRegistersChangeOnlyByHostWriteOrReset := by
  intro s t h
  obtain ⟨hcfg, hprog⟩ := step_cfg_prog h
  refine ⟨hcfg, hprog, ?_⟩
  rcases step_next_cases h with ⟨hm, -⟩ | ⟨hm, he⟩ | ⟨hm, hst, n, rfl, -⟩ | ⟨hm, off, b, e, hline, hwf, rfl⟩
  · simp [hm]
  · obtain ⟨-, -, hlen, hie, -, hhost⟩ := engineComplete_frame he
    simp [hlen, hie, hhost]
  · simp [hm]
  · have hal := aligned_of_transactionWellFormed hwf
    refine ⟨by simp [hm], fun hne => .inr ⟨hm, b, e, ?_⟩, fun hne => .inr ⟨hm, b, e, ?_⟩⟩
    · have hl := (hostWrite_ie s.popMove off (busValue (e.eval s.host))).resolve_left hne
      rw [hline, offset_of_locate_ctrl hal hl]
    · have hl := (hostWrite_len s.popMove off (busValue (e.eval s.host))).resolve_left hne
      rw [hline, offset_of_locate_len hal hl]

end Sys2Proof.Machine
end

section
/-! PROOFS. The registers and the engine's turn, as equations: R26, R32, R35 and R36 of 10_state.md, and the placed word. -/

namespace Sys2Proof.Machine

/-- The number a word is placed by is that word's again. -/
theorem ofNat_toNat_mod (w : Word) : BitVec.ofNat 32 (w.toNat % 2 ^ 32) = w := by
  rw [Nat.mod_eq_of_lt w.isLt, BitVec.ofNat_toNat, BitVec.setWidth_eq]

/-- Settles O6: the placed word is accepted with the engine next, and decodes to its command. -/
theorem placedWordRunsAsTheNextStep : Obligations.PlacedWordRunsAsTheNextStep := by
  intro s i
  rw [State.withFetchWord, ofNat_toNat_mod, step_of_engine rfl]
  exact engineComplete_legal (p := s.latch (encode i)) rfl (decode_encode i)

/-- Settles O8: without PEND a meaning faults and the engine's turn passes. -/
theorem engineHasNoStepWithoutACommand : Obligations.EngineHasNoStepWithoutACommand := by
  refine fun s hp => ⟨exec_none hp, fun hs => ?_⟩
  rw [step_of_engine (nextMover_of_head hs)]
  exact engineComplete_none hp

/-- The status bits at their places, as a sum (10_state.md R26). -/
theorem flagBits_eq : ∀ busy done err ovr : Bool,
    flagBit busy 0 ||| flagBit done 1 ||| flagBit err 2 ||| flagBit ovr 3 =
      BitVec.ofNat 32 (ovr.toNat * 8 + err.toNat * 4 + done.toNat * 2 + busy.toNat) := by decide

/-- Settles O44: the read by its four bits, the write by the definition of `writeStatus`. -/
theorem statusReadsFourBitsAndClearsByOnes : Obligations.StatusReadsFourBitsAndClearsByOnes :=
  fun s _ => ⟨(hostRead_of_some rfl).trans (congrArg (·, s) (flagBits_eq ..)), rfl⟩

/-- Settles O43: a write of CMD is dropped while BUSY = 1 and else accepted with its operands. -/
theorem commandWriteIsAcceptedOrDropped : Obligations.CommandWriteIsAcceptedOrDropped :=
  fun _ v => ⟨hostWrite_cmd_busy v, hostWrite_cmd_idle v⟩

/-- Settles O52: irq is computed from IE and DONE, so each clause is what its event does to these two. -/
theorem interruptIsALevelOfIeAndDone : Obligations.InterruptIsALevelOfIeAndDone := by
  refine fun s => ⟨rfl, fun hp => ?_, fun v hv => ?_, fun v hb => ?_, rfl, fun v hv => ⟨?_, rfl⟩, fun v hb => ?_,
    fun k v hb hk => ?_⟩
  · obtain ⟨t, ht⟩ := engineComplete_next s
    obtain ⟨-, -, -, hie, -⟩ := engineComplete_frame ht
    obtain ⟨-, hdone, -⟩ := engineComplete_status hp ht
    exact ⟨t, ht, by simp [State.irq, hie, hdone], hdone⟩
  · change (s.writeStatus v).irq = false
    simp [State.irq, clearByOne, hv]
  · simp [hostWrite_cmd_idle v hb, State.irq]
  · change (v.getLsbD 0 && s.done) = false
    rw [hv, Bool.false_and]
  · rw [hostWrite_cmd_busy v hb]; rfl
  · rw [hostWrite_elem_busy v hb hk]; rfl

end Sys2Proof.Machine
end

section
/-! PROOFS. The window row by row of its register map (20_memory.md R42): which offset stands for which row, what a read
and a write of each row do, and the complete read and write functions assembled from them (R50, R53). -/

namespace Sys2Proof.Machine

variable {s : State}

/-! ### The rows of the registers, by the offsets of 30_encoding.md R75 -/

theorem locate_offOperand {c : Params} (hc : c.valid) (x : Operand) {j : Nat} (hj : j < c.nw) :
    locate c (offOperand x + 4 * j) = .operand x j := by
  obtain ⟨-, hnw, -⟩ := hc
  cases x
  · exact locate_register c hnw (w := 1) (by decide) hj
  · exact locate_register c hnw (w := 2) (by decide) hj
  · exact locate_register c hnw (w := 3) (by decide) hj
  · exact locate_register c hnw (w := 4) (by decide) hj

theorem locate_offResult {c : Params} (hc : c.valid) {j : Nat} (hj : j < c.nw) :
    locate c (0x005000 + 4 * j) = .result j := by
  obtain ⟨-, hnw, -⟩ := hc
  exact locate_register c hnw (w := 5) (by decide) hj

/-! ### Reads (20_memory.md R50) -/

theorem hostRead_of_reserved {off : Nat} (hl : locate s.cfg off = .reserved) : s.hostRead off = (0#32, s) :=
  hostRead_of_some (by rw [State.wordInWindow, hl])

theorem hostRead_offOperand (hc : s.cfg.valid) (x : Operand) {j : Nat} (hj : j < s.cfg.nw) :
    s.hostRead (offOperand x + 4 * j) = (wordAt (s.operand x) j, s) :=
  hostRead_of_some (by rw [State.wordInWindow, locate_offOperand hc x hj])

theorem hostRead_offResult (hc : s.cfg.valid) {j : Nat} (hj : j < s.cfg.nw) :
    s.hostRead (0x005000 + 4 * j) = (wordAt s.r j, s) :=
  hostRead_of_some (by rw [State.wordInWindow, locate_offResult hc hj])

/-- A written element word reads as it stands while no command is in flight (20_memory.md R51). -/
theorem hostRead_elem_idle {k : Nat} {w : Word} (hk : k < s.cfg.depth * s.cfg.nw) (hb : s.busy = false)
    (hw : readWord s.elem (elemOff k) = some w) : s.hostRead (0x100000 + 4 * k) = (w, s) := by
  refine hostRead_of_some (off := elemOff k) ?_
  rw [State.wordInWindow, locate_elem s.cfg hk]
  simp [hb, hw]

/-- PARAM's two half-words, as a sum (10_state.md R20). -/
theorem paramWord_eq {c : Params} (hc : c.valid) : Params.paramWord c = BitVec.ofNat 32 (c.depth * 65536 + c.nw) := by
  obtain ⟨-, hnw, -, hdepth, -⟩ := hc
  apply BitVec.eq_of_toNat_eq
  rw [Params.paramWord, BitVec.toNat_append, BitVec.toNat_ofNat, BitVec.toNat_ofNat, BitVec.toNat_ofNat,
    ← Nat.shiftLeft_add_eq_or_of_lt (Nat.mod_lt _ (by decide)), Nat.shiftLeft_eq]
  omega

theorem hostRead_ctrl (s : State) : s.hostRead 0x000008 = (BitVec.ofNat 32 s.ie.toNat, s) := by
  refine hostRead_of_some (congrArg some ?_)
  rw [State.ctrlWord]
  cases s.ie <;> rfl

theorem hostRead_status (s : State) : s.hostRead 0x00000C =
    (BitVec.ofNat 32 (s.ovr.toNat * 8 + s.err.toNat * 4 + s.done.toNat * 2 + s.busy.toNat), s) :=
  (statusReadsFourBitsAndClearsByOnes s 0#32).1

theorem hostRead_errcode (s : State) : s.hostRead 0x000014 = (BitVec.ofNat 32 s.errcode.toNat, s) := by
  rw [BitVec.ofNat_toNat]
  exact hostRead_of_some rfl

/-! ### Writes (20_memory.md R53) -/

theorem hostWrite_of_reserved {off : Nat} (hl : locate s.cfg off = .reserved) (v : Word) : s.hostWrite off v = s := by
  rw [State.hostWrite, hl]

theorem hostWrite_offResult (hc : s.cfg.valid) {j : Nat} (hj : j < s.cfg.nw) (v : Word) :
    s.hostWrite (0x005000 + 4 * j) v = s := by
  rw [State.hostWrite, locate_offResult hc hj]

theorem hostWrite_offOperand (hc : s.cfg.valid) (x : Operand) {j : Nat} (hj : j < s.cfg.nw) (v : Word) :
    s.hostWrite (offOperand x + 4 * j) v = s.setOperand x (setWordAt (s.operand x) j v) := by
  rw [State.hostWrite, locate_offOperand hc x hj]

theorem hostRead_setOperand (hc : s.cfg.valid) (x : Operand) (n : Nat) {k : Nat} (hk : k < s.cfg.nw) :
    (s.setOperand x n).hostRead (offOperand x + 4 * k) = (wordAt n k, s.setOperand x n) := by
  rw [hostRead_offOperand (by simpa using hc) x (by simpa using hk), State.operand_setOperand_self]

/-- A word write of an operand register, by the words of its new value. -/
theorem hostWrite_offOperand_words (hc : s.cfg.valid) (x : Operand) {j : Nat} (hj : j < s.cfg.nw) (v : Word) :
    ∃ n, s.hostWrite (offOperand x + 4 * j) v = s.setOperand x n ∧ wordAt n j = v ∧
      ∀ k, k ≠ j → wordAt n k = wordAt (s.operand x) k :=
  ⟨_, hostWrite_offOperand hc x hj v, wordAt_setWordAt_self .., fun _ => wordAt_setWordAt_other _ v⟩

theorem hostWrite_elem_idle {k : Nat} (hk : k < s.cfg.depth * s.cfg.nw) (hb : s.busy = false) (v : Word) :
    s.hostWrite (0x100000 + 4 * k) v = { s with elem := writeWord s.elem (elemOff k) v } := by
  change s.hostWrite (elemOff k) v = _
  simp [State.hostWrite, locate_elem s.cfg hk, State.writeElemWord, hb]

/-! ### The statements -/

/-- Settles O40: a read of each row of the register map. -/
theorem readFunctionOfTheWindow : Obligations.ReadFunctionOfTheWindow := by
  intro s hc
  have hreserved : ∀ {off}, off % 4 = 0 → _ → s.hostRead off = (0#32, s) :=
    fun hal h => hostRead_of_reserved (locate_reserved hal h)
  refine ⟨rfl, ?_, hostRead_ctrl s, hostRead_status s, rfl, hostRead_errcode s, rfl, fun j hj => ?_,
    fun k w hk hb hw => hostRead_elem_idle hk hb hw, fun j hnw hj x hx hx' => ?_, fun k hk _ => ?_, fun off hal h => ?_,
    hostRead_state s⟩
  · rw [← paramWord_eq hc]
    exact hostRead_of_some rfl
  · exact ⟨hostRead_offOperand hc .a hj, hostRead_offOperand hc .b hj, hostRead_offOperand hc .e hj,
      hostRead_offOperand hc .m hj, hostRead_offResult hc hj⟩
  · exact hreserved (by omega) (.inr (.inr (.inl (by omega))))
  · exact hreserved (by omega) (.inr (.inr (.inr (by simp only [elemOff, elemBase, Params.elemWords]; omega))))
  · exact hreserved hal (by simp only [elemBase]; omega)

/-- Settles O41: a write of each row of the register map. -/
theorem writeFunctionOfTheWindow : Obligations.WriteFunctionOfTheWindow := by
  intro s v hc
  refine ⟨rfl, rfl, rfl, rfl, fun j hj => ⟨hostWrite_offOperand_words hc .a hj v, hostWrite_offOperand_words hc .b hj v,
    hostWrite_offOperand_words hc .e hj v, hostWrite_offOperand_words hc .m hj v, hostWrite_offResult hc hj v⟩,
    fun k hk => ⟨fun hb => hostWrite_elem_busy v hb hk, fun hb => hostWrite_elem_idle hk hb v⟩, rfl, rfl, rfl,
    fun off hal _ h => hostWrite_of_reserved (locate_reserved hal h) v⟩

/-- A write of CTRL takes bit 0 only (10_state.md R21). -/
theorem hostWrite_ctrl_and (s : State) (v : Word) :
    s.hostWrite 0x000008 v = s.hostWrite 0x000008 (v &&& 0x00000001#32) := by
  change { s with ie := v.getLsbD 0 } = { s with ie := (v &&& 1#32).getLsbD 0 }
  simp

/-- A write of STATUS takes bits 1 to 3 only (10_state.md R26). -/
theorem hostWrite_status_and (s : State) (v : Word) :
    s.hostWrite 0x00000C v = s.hostWrite 0x00000C (v &&& 0x0000000E#32) := by
  change s.writeStatus v = s.writeStatus (v &&& 0x0000000E#32)
  simp [State.writeStatus, clearByOne]

/-- Settles O42: the reserved rows, and the fields of CTRL, STATUS and ERRCODE by their widths. -/
theorem reservedPlacesReadZeroAndIgnoreWrites : Obligations.ReservedPlacesReadZeroAndIgnoreWrites := by
  intro s v hc
  refine ⟨fun off hal _ h => ?_, rfl, rfl, rfl, fun j hj => hostWrite_offResult hc hj v, ?_, ?_, ?_,
    hostWrite_ctrl_and s v, hostWrite_status_and s v⟩
  · have hl := locate_reserved (c := s.cfg) hal h
    exact ⟨hostRead_of_reserved hl, hostWrite_of_reserved hl v⟩
  · have := s.ie.toNat_lt
    rw [hostRead_ctrl, BitVec.toNat_ofNat]; omega
  · have := s.busy.toNat_lt
    have := s.done.toNat_lt
    have := s.err.toNat_lt
    have := s.ovr.toNat_lt
    rw [hostRead_status, BitVec.toNat_ofNat]; omega
  · have := s.errcode.isLt
    rw [hostRead_errcode, BitVec.toNat_ofNat]; omega

/-- Settles O45: the register after the write reads by the words of its new value. -/
theorem operandWordReadsBackAsWritten : Obligations.OperandWordReadsBackAsWritten := by
  intro s x j v hc hj
  refine ⟨hostRead_offOperand hc x hj, setWordAt (s.operand x) j v, _, rfl, hostWrite_offOperand hc x hj v, ?_⟩
  rw [hostWrite_offOperand hc x hj v]
  refine ⟨State.setOperand_pend .., ?_, fun k hk hkj => ?_, fun y hy => State.operand_setOperand_other s hy _,
    fun hx => ?_⟩
  · rw [hostRead_setOperand hc x _ hj, wordAt_setWordAt_self]
  · rw [hostRead_setOperand hc x _ hk, hostRead_offOperand hc x hk, wordAt_setWordAt_other _ v hkj]
  · rw [State.operand_setOperand_self]
    exact setWordAt_lt v hx hj

/-- Settles O46: R's rows read its words and ignore writes. -/
theorem resultRegisterIsReadOnly : Obligations.ResultRegisterIsReadOnly :=
  fun _ _ v hc hj => ⟨hostRead_offResult hc hj, hostWrite_offResult hc hj v⟩

/-- Settles O47: the word write of the buffer, and its read back from the state it leaves. -/
theorem elementWordsOverTheBus : Obligations.ElementWordsOverTheBus := by
  intro s k v _ hk
  refine ⟨fun hb => ⟨_, hostWrite_elem_idle hk hb v, readWord_writeWord_self .., fun q hq => ?_, ?_⟩,
    fun hb w hw => hostRead_elem_idle hk hb hw, fun hb => hostWrite_elem_busy v hb hk, ?_⟩
  · rw [readByte_writeWord, if_neg (by simp only [elemOff, elemBase]; omega)]
  · exact hostRead_elem_idle (s := { s with elem := _ }) hk hb (readWord_writeWord_self ..)
  · obtain ⟨n, hn⟩ := hostRead_state s (0x100000 + 4 * k)
    exact ⟨_, n, Prod.ext rfl hn⟩

end Sys2Proof.Machine
end

section
/-! PROOFS. Which host lines are refused: a transaction by its width, its alignment and the window (20_memory.md R41, R44), a
goto by its label (30_encoding.md R74), a load by its value (R77). A well-formed program meets the last only. -/

namespace Sys2Proof.Machine

variable {s : State}

/-! ### Transactions -/

theorem transaction_of_refused {off bytes : Nat} {why : Refusal} (h : refusedTransaction off bytes = some why)
    (s : State) (x : Nat) (e : Expr) :
    hostLine (.rd x off bytes) s = .refused why ∧ hostLine (.wr off bytes e) s = .refused why := by
  simp [hostLine, hostRd, hostWr, h]

theorem transaction_of_accepted {off bytes : Nat} (h : refusedTransaction off bytes = none)
    (s : State) (x : Nat) (e : Expr) :
    (∃ t, hostLine (.rd x off bytes) s = .next t) ∧ ∃ t, hostLine (.wr off bytes e) s = .next t := by
  simp [hostLine, hostRd, hostWr, h]

/-- Settles O38: such a transaction is not well-formed. -/
theorem misalignedOrNarrowTransactionIsRefused : Obligations.MisalignedOrNarrowTransactionIsRefused := by
  intro s off bytes x e h
  have hne : refusedTransaction off bytes ≠ none := by
    rw [Ne, refusedTransaction_none, transactionWellFormed]
    rcases h with h | h <;> simp [h]
  obtain ⟨why, hwhy⟩ := Option.ne_none_iff_exists'.1 hne
  obtain ⟨hrd, hwr⟩ := transaction_of_refused hwhy s x e
  exact ⟨⟨why, hrd⟩, why, hwr⟩

/-- Settles O39: for an aligned word only the window is left to check. -/
theorem transactionOutsideTheWindowIsRefused : Obligations.TransactionOutsideTheWindowIsRefused := by
  intro s off x e hal
  have hcheck := refusedTransaction_aligned hal
  refine ⟨fun hout => transaction_of_refused ?_ s x e, fun hin => transaction_of_accepted ?_ s x e⟩
  · rw [hcheck, if_pos (show windowSize ≤ off from hout)]
  · rw [hcheck, if_neg (show ¬ windowSize ≤ off from Nat.not_le_of_lt hin)]

/-! ### Jumps -/

/-- A declared label is found, also one declared twice (log 14). -/
theorem exists_findLabel_of_mem {prog : List Line} {l : Nat} (h : l ∈ labelsOf prog) :
    ∃ pos, findLabel prog l = some pos := by
  induction prog with
  | nil => simp [labelsOf] at h
  | cons line rest ih =>
    by_cases hline : line = .label l
    · exact ⟨0, by simp [findLabel, hline]⟩
    · have hrest : l ∈ labelsOf rest := by
        cases line with
        | label l' => exact (List.mem_cons.1 h).resolve_left fun heq => hline (heq ▸ rfl)
        | rd | wr | assign | branch | jump | fits | halt => exact h
      obtain ⟨pos, hpos⟩ := ih hrest
      exact ⟨pos + 1, by simp [findLabel, hline, hpos]⟩

theorem gotoLabel_ne_refused {l : Nat} (h : l ∈ labelsOf s.host.prog) (why : Refusal) :
    gotoLabel l s ≠ .refused why := by
  obtain ⟨pos, hpos⟩ := exists_findLabel_of_mem h
  simp [gotoLabel, hpos]

/-! ### Well-formed lines -/

/-- A well-formed line is refused only where it is the check of a value that does not fit (30_encoding.md R77). -/
theorem hostLine_refused_of_wellFormed {line : Line} {why : Refusal}
    (hwf : line.wellFormed (labelsOf s.host.prog) = true) (h : hostLine line s = .refused why) :
    why = .valueDoesNotFit ∧
      ∃ e, line = .fits e ∧ ¬ (0 ≤ e.eval s.host ∧ e.eval s.host < 2 ^ s.cfg.width) := by
  cases line with
  | rd x off bytes =>
    obtain ⟨⟨t, ht⟩, -⟩ := transaction_of_accepted (refusedTransaction_none.2 hwf) s x (.lit 0)
    simp [ht] at h
  | wr off bytes e =>
    obtain ⟨-, t, ht⟩ := transaction_of_accepted (refusedTransaction_none.2 hwf) s 0 e
    simp [ht] at h
  | jump l => exact absurd h (gotoLabel_ne_refused (List.contains_iff_mem.1 hwf) why)
  | branch e l =>
    simp only [hostLine] at h
    split at h
    · exact absurd h (gotoLabel_ne_refused (List.contains_iff_mem.1 hwf) why)
    · cases h
  | fits e =>
    simp only [hostLine] at h
    split at h
    · cases h
    · next hfit => cases h; exact ⟨rfl, e, rfl, hfit⟩
  | label | assign | halt => cases h

/-- Settles O37: a step is refused only by the host's line, and of well-formed lines only by a check of `ld`. -/
theorem nothingStopsAWellFormedProgram : Obligations.NothingStopsAWellFormedProgram := by
  refine ⟨step_ne_fault, fun s hwf => ?_⟩
  rcases step_next_or_refused s with ⟨t, ht⟩ | ⟨why, hr⟩
  · obtain ⟨-, hprog⟩ := step_cfg_prog ht
    exact .inl ⟨t, ht, hprog⟩
  · obtain ⟨hm, hhalt, line, hline, href⟩ := step_refused hr
    have hlwf := List.all_eq_true.1 hwf line (List.mem_of_getElem? hline)
    obtain ⟨rfl, e, rfl, hfit⟩ := hostLine_refused_of_wellFormed (s := s.popMove) hlwf href
    exact .inr ⟨hr, hm, hhalt, e, hline, hfit⟩

end Sys2Proof.Machine
end

section
/-! PROOFS. The window as the host sees it over several transactions: a write made twice (20_memory.md R55), the words and bytes
of a value (R45, R46), and STATUS beside the command in flight (R59). -/

namespace Sys2Proof.Machine

variable {s : State}

/-! ### Writes made twice (20_memory.md R55) -/

/-- CMD stands at its own offset only, among all offsets, aligned or not (20_memory.md R42). -/
theorem locate_ne_cmd {c : Params} {off : Nat} (h : off ≠ 0x000010) : locate c off ≠ .cmd := by
  unfold locate
  split
  · unfold controlPlace
    split <;> simp_all
  · split
    · unfold windowPlace
      split
      · rcases registerPlace_cases (off / 0x1000) (off % 0x1000 / 4) with ⟨x, hx⟩ | hr <;> simp [*]
      · simp
    · unfold bufferPlace
      split
      · simp
      · split <;> simp

theorem clearByOne_clearByOne (x : Bool) (v : Word) (place : Nat) :
    clearByOne (clearByOne x v place) v place = clearByOne x v place := by
  simp [clearByOne]

theorem State.setOperand_setOperand (s : State) (x : Operand) (n n' : Nat) :
    (s.setOperand x n).setOperand x n' = s.setOperand x n' := by cases x <;> rfl

/-- A write of any row but CMD, made twice, is the write made once. -/
theorem hostWrite_hostWrite (hwf : Memory.wf s.elem) {off : Nat} (hoff : off ≠ 0x000010) (v : Word) :
    (s.hostWrite off v).hostWrite off v = s.hostWrite off v := by
  have hcmd : locate s.cfg off ≠ .cmd := locate_ne_cmd hoff
  rcases hostWrite_cases s off v with he | ⟨hl, he⟩ | ⟨hl, he⟩ | ⟨hl, -, he⟩ | ⟨hl, he⟩ | ⟨x, j, hl, -, he⟩ |
    ⟨k, hl, -, hb, he⟩ | ⟨hb, hl, he⟩ <;> rw [he]
  · exact he
  · simp [State.hostWrite, hl]
  · simp [State.hostWrite, hl, State.writeStatus, clearByOne_clearByOne]
  · exact absurd hl hcmd
  · simp [State.hostWrite, hl]
  · simp [State.hostWrite, hl, State.setOperand_setOperand, setWordAt_setWordAt]
  · simp [State.hostWrite, hl, State.writeElemWord, hb, writeWord_writeWord hwf]
  · obtain ⟨k, hk⟩ := hl.resolve_left hcmd
    simp [State.hostWrite, hk, State.writeElemWord, hb, State.dropWrite]

/-- Settles O48: CMD apart, by the rows of the register map; CMD by BUSY. -/
theorem writesAreIdempotentExceptToCmd : Obligations.WritesAreIdempotentExceptToCmd := by
  refine fun s v h => ⟨fun _ hoff => hostWrite_hostWrite h.memWf hoff v, hostRead_state s, fun hb => ?_,
    hostWrite_cmd_busy v⟩
  rw [hostWrite_cmd_idle v hb]
  exact ⟨Option.some_ne_none _, hostWrite_cmd_busy v (State.accept_busy s v)⟩

/-! ### Bytes and words (20_memory.md R45, R46) -/

theorem byteOfWord_eq_ofNat (w : Word) (b : Nat) : byteOfWord w b = BitVec.ofNat 8 (w.toNat / 2 ^ (8 * b)) := by
  apply BitVec.eq_of_toNat_eq
  rw [byteOfWord, BitVec.extractLsb'_toNat, BitVec.toNat_ofNat, Nat.shiftRight_eq_div_pow]

/-- Settles O49: the byte's offset falls to its word's offset and its place in the word. -/
theorem windowIsLittleEndian : Obligations.WindowIsLittleEndian := by
  intro s off b w hal hoff hb hw
  have hin : s.cfg.base ≤ s.cfg.base + off + b ∧ s.cfg.base + off + b < s.cfg.base + windowSize := by
    simp only [windowSize]; omega
  have hword : (s.cfg.base + off + b - s.cfg.base) / 4 * 4 = off := by omega
  have hplace : (s.cfg.base + off + b - s.cfg.base) % 4 = b := by omega
  simp only [State.platformByte, if_pos hin, hword, hplace, hw, Option.map_some, byteOfWord_eq_ofNat]

/-- A value that fits is the sum of the words that a register reads by. -/
theorem eq_sum_of_reads {x nw base : Nat} (hx : x < 2 ^ (32 * nw))
    (hread : ∀ j, j < nw → s.hostRead (base + 4 * j) = (wordAt x j, s)) :
    x = ((List.range nw).map (fun j => (s.hostRead (base + 4 * j)).1.toNat * 2 ^ (32 * j))).sum := by
  calc x = x % 2 ^ (32 * nw) := (Nat.mod_eq_of_lt hx).symm
    _ = ((List.range nw).map (fun j => (wordAt x j).toNat * 2 ^ (32 * j))).sum := (sum_words x nw).symm
    _ = _ := by
      congr 1
      exact List.map_congr_left fun j hj => by rw [hread j (List.mem_range.1 hj)]

/-- A sum of words is its lowest word and the sum of the others, one word higher. -/
theorem sum_words_succ (f : Nat → Nat) (n : Nat) :
    ((List.range (n + 1)).map (fun j => f j * 2 ^ (32 * j))).sum =
      f 0 + 2 ^ 32 * ((List.range n).map (fun j => f (j + 1) * 2 ^ (32 * j))).sum := by
  have hhigher : ∀ j ∈ List.range n,
      ((fun j => f j * 2 ^ (32 * j)) ∘ Nat.succ) j = 2 ^ 32 * (f (j + 1) * 2 ^ (32 * j)) := fun j _ => by
    rw [Function.comp_apply, Nat.succ_eq_add_one, pow_word]
    ring
  rw [List.range_succ_eq_map, List.map_cons, List.map_map, List.map_congr_left hhigher, List.sum_cons,
    List.sum_map_mul_left, mul_zero, pow_zero, mul_one]

/-- A run of written words is the sum of them, by induction on the run. -/
theorem readWords_eq_sum {mem : Memory} {n k v : Nat} (h : readWords mem k n = some v) :
    v = ((List.range n).map (fun j => ((readWord mem (elemOff (k + j))).getD 0#32).toNat * 2 ^ (32 * j))).sum := by
  induction n generalizing k v with
  | zero => simpa [readWords, eq_comm] using h
  | succ n ih =>
    unfold readWords at h
    split at h
    · next w hi hw hhi =>
      cases h
      rw [sum_words_succ fun j => ((readWord mem (elemOff (k + j))).getD 0#32).toNat, add_zero, hw, Option.getD_some,
        ih hhi]
      simp only [Nat.add_assoc, Nat.add_comm 1]
    · cases h

/-- Settles O50: the registers by their reads, the elements by their words. -/
theorem wideValuesAreLeastSignificantWordFirst : Obligations.WideValuesAreLeastSignificantWordFirst :=
  fun _ h => ⟨fun x => eq_sum_of_reads (h.operandFits x) fun _ => hostRead_offOperand h.params x,
    eq_sum_of_reads h.rFits fun _ => hostRead_offResult h.params, fun _ _ => readWords_eq_sum⟩

/-! ### STATUS (20_memory.md R59) -/

theorem flagBits_getLsbD : ∀ busy done err ovr : Bool,
    (flagBit busy 0 ||| flagBit done 1 ||| flagBit err 2 ||| flagBit ovr 3).getLsbD 0 = busy ∧
    (flagBit busy 0 ||| flagBit done 1 ||| flagBit err 2 ||| flagBit ovr 3).getLsbD 1 = done := by decide

/-- Settles O51: the two bits read BUSY and DONE, which the invariant ties to PEND. -/
theorem statusReadShowsCompletion : Obligations.StatusReadShowsCompletion := by
  intro s h
  obtain ⟨hbusy, hdone⟩ := flagBits_getLsbD s.busy s.done s.err s.ovr
  have hidle : s.busy = false ↔ s.pend = none := by rw [h.busyIff, Option.isSome_eq_false_iff, Option.isNone_iff_eq_none]
  refine ⟨(Eq.congr_left hbusy).trans hidle, fun hd => hidle.1 ?_⟩
  by_contra hb
  obtain ⟨hd', -⟩ := h.handshake (Bool.eq_true_of_not_eq_false hb)
  exact absurd (hdone.symm.trans hd) (by simp [hd'])

end Sys2Proof.Machine
end

section
/-! PROOFS. The encoding: decoding has one inverse, so a word is legal exactly when it is the word of a command
(30_encoding.md R71 to R73), and the bytes of a command are the only ones that decode to it (20_memory.md R45). -/

namespace Sys2Proof

variable {v : Word}

/-! ### Words -/

theorem decode_eq_legal_iff {i : Instr} : decode v = .legal i ↔ v = encode i :=
  ⟨eq_encode_of_decode, fun h => h ▸ decode_encode i⟩

/-- Every command word is its OP alone (30_encoding.md R71). -/
theorem encode_toNat_lt (i : Instr) : (encode i).toNat < 16 := by cases i <;> decide

/-- A legal word by the two fields of R73: RSVD is 0 and OP is the command's. -/
theorem decode_eq_legal_iff_fields {i : Instr} :
    decode v = .legal i ↔ v.toNat / 16 = 0 ∧ v.toNat % 16 = (encode i).toNat := by
  have hop := encode_toNat_lt i
  rw [decode_eq_legal_iff, ← BitVec.toNat_inj]
  omega

theorem exists_encode_toNat_iff {op : Nat} : (∃ i, op = (encode i).toNat) ↔ op ∈ [1, 2, 3, 4] := by
  constructor
  · rintro ⟨i, rfl⟩
    cases i <;> decide
  · intro h
    simp only [List.mem_cons, List.not_mem_nil, or_false] at h
    rcases h with rfl | rfl | rfl | rfl
    · exact ⟨.gcd, rfl⟩
    · exact ⟨.modinv, rfl⟩
    · exact ⟨.modpow, rfl⟩
    · exact ⟨.map, rfl⟩

/-- Which words are legal (30_encoding.md R72). -/
theorem exists_decode_legal_iff : (∃ i, decode v = .legal i) ↔ v.toNat / 16 = 0 ∧ v.toNat % 16 ∈ [1, 2, 3, 4] := by
  simp only [decode_eq_legal_iff_fields, exists_and_left, exists_encode_toNat_iff]

theorem exists_decode_illegal_iff_not_legal :
    (∃ why, decode v = .illegal why) ↔ ¬ ∃ i, decode v = .legal i := by
  cases decode v <;> simp

/-- Which words are illegal (30_encoding.md R72, R73). -/
theorem exists_decode_illegal_iff :
    (∃ why, decode v = .illegal why) ↔ v.toNat / 16 ≠ 0 ∨ v.toNat % 16 = 0 ∨ 5 ≤ v.toNat % 16 := by
  rw [exists_decode_illegal_iff_not_legal, exists_decode_legal_iff]
  simp only [List.mem_cons, List.not_mem_nil, or_false]
  omega

/-! ### Bytes -/

/-- A word as the number its bytes make, lowest byte first (20_memory.md R45). -/
theorem wordOfBytes_toNat (b0 b1 b2 b3 : Byte) :
    (wordOfBytes b0 b1 b2 b3).toNat =
      2 ^ 8 * (2 ^ 8 * (2 ^ 8 * b3.toNat + b2.toNat) + b1.toNat) + b0.toNat := by
  rw [wordOfBytes, BitVec.toNat_append, ← Nat.shiftLeft_add_eq_or_of_lt b0.isLt,
    BitVec.toNat_append, ← Nat.shiftLeft_add_eq_or_of_lt b1.isLt,
    BitVec.toNat_append, ← Nat.shiftLeft_add_eq_or_of_lt b2.isLt]
  simp only [Nat.shiftLeft_eq, Nat.mul_comm]

/-- The bytes put together in a word are the bytes of that word. -/
theorem bytesOfWord_wordOfBytes (b0 b1 b2 b3 : Byte) : bytesOfWord (wordOfBytes b0 b1 b2 b3) = [b0, b1, b2, b3] := by
  have hbyte : ∀ (b : Byte) (k : Nat), (wordOfBytes b0 b1 b2 b3).toNat / 2 ^ (8 * k) % 2 ^ 8 = b.toNat →
      byteOfWord (wordOfBytes b0 b1 b2 b3) k = b := fun b k h => by
    apply BitVec.eq_of_toNat_eq
    rw [Machine.byteOfWord_eq_ofNat, BitVec.toNat_ofNat, h]
  have h0 := b0.isLt
  have h1 := b1.isLt
  have h2 := b2.isLt
  have hword := wordOfBytes_toNat b0 b1 b2 b3
  rw [bytesOfWord, hbyte b0 0 (by omega), hbyte b1 1 (by omega), hbyte b2 2 (by omega), hbyte b3 3 (by omega)]

/-- Bytes that decode to a command are its own, with the rest behind them. -/
theorem eq_encodeBytes_of_decodeBytes {bytes rest : List Byte} {i : Instr}
    (h : decodeBytes bytes = (.legal i, rest)) : bytes = encodeBytes i ++ rest := by
  unfold decodeBytes at h
  split at h
  · next b0 b1 b2 b3 tail =>
    obtain ⟨hword, rfl⟩ := Prod.mk.inj h
    rw [encodeBytes, ← eq_encode_of_decode hword, bytesOfWord_wordOfBytes]
    rfl
  · cases h

/-! ### The statements -/

/-- Settles O3: decoding is inverted by encoding on both sides, on words and on bytes. -/
theorem decodeAndEncodeAgree : Obligations.DecodeAndEncodeAgree := by
  refine fun i _ => ⟨decode_encode i, decodeBytes_encodeBytes i, ?_, fun _ => eq_encode_of_decode,
    fun _ _ => eq_encodeBytes_of_decodeBytes⟩
  rw [decodeTableWord_eq, decode_encode]

/-- Settles O2: a legal word by its two fields, an illegal one as the complement. -/
theorem decodeReadsEveryWordAsTheSpecSays : Obligations.DecodeReadsEveryWordAsTheSpecSays :=
  fun _ => ⟨decode_eq_legal_iff_fields, decode_eq_legal_iff_fields, decode_eq_legal_iff_fields,
    decode_eq_legal_iff_fields, exists_decode_illegal_iff⟩

/-- Settles O1: the words written out are the encoder's, and each OP left over makes an illegal word. -/
theorem commandWordsDecodeAsTheTableSays : Obligations.CommandWordsDecodeAsTheTableSays := by
  refine ⟨decode_encode .gcd, decode_encode .modinv, decode_encode .modpow, decode_encode .map, fun op hop => ?_⟩
  rw [exists_decode_illegal_iff, BitVec.toNat_ofNat]
  omega

end Sys2Proof
end

section
/-! PROOFS. Illegal words and the host's turn as equations: an illegal word is accepted and fails (30_encoding.md R72), and a
step of the host runs the line at its position (R74). -/

namespace Sys2Proof.Machine

variable {s : State}

/-- Settles O4: acceptance looks at no bit of the word, and the completion decodes it first. -/
theorem illegalWordIsAcceptedAndFails : Obligations.IllegalWordIsAcceptedAndFails := by
  refine ⟨fun _ => exists_decode_legal_iff, fun v s hv => ⟨hostWrite_cmd_idle v, ?_⟩⟩
  rintro p hp rfl
  obtain ⟨why, hwhy⟩ := exists_decode_illegal_iff_not_legal.2 (mt exists_decode_legal_iff.1 hv)
  exact engineComplete_illegal hp hwhy

/-! ### The host's turn -/

theorem hostMove_line {line : Line} (hh : s.host.halted = false) (hl : s.host.prog[s.host.pos]? = some line) :
    hostMove s = hostLine line s := by
  simp [hostMove, hh, hl]

/-- After `halt` and past the last line the host's turn passes (log 7). -/
theorem hostMove_passes (h : s.host.halted = true ∨ s.host.prog[s.host.pos]? = none) : hostMove s = .next s := by
  unfold hostMove
  rcases h with h | h
  · rw [if_pos h]
  · rw [h, ite_self]

theorem step_of_host (hm : nextMover s = .host) : step s = hostMove s.popMove := by rw [step, hm]; rfl

/-- With no command in flight the host moves when the order says so, and when no order is left (log 6). -/
theorem nextMover_host (h : s.sched.head? = some .host ∨ (s.sched = [] ∧ s.pend = none)) : nextMover s = .host := by
  rcases h with hs | ⟨hs, hp⟩
  · exact nextMover_of_head hs
  · simp [nextMover, hs, defaultMover, hp]

/-- Settles O7: the step is the host's turn, and the turn is the line's, or passes. -/
theorem hostStepRunsTheLine : Obligations.HostStepRunsTheLine := by
  intro s hm
  rw [step_of_host (nextMover_host hm)]
  exact ⟨fun line hh hl => hostMove_line (s := s.popMove) hh hl, hostMove_passes (s := s.popMove)⟩

end Sys2Proof.Machine
end

section
/-! PROOFS. What the host's lines and expressions do (30_encoding.md R74): variables read back after an assignment, labels,
the value on the bus, the check `fits` (R77), and the operators inside the ranges the spec gives (00_scope.md R8). -/

namespace Sys2Proof.Machine

variable {s : State}

/-! ### Variables -/

/-- What the variables hold after a line that assigns one of them. -/
theorem getVar_assigned (s : State) (x : Nat) (z : Int) (y : Nat) :
    (s.setVar x z).advance.host.getVar y = if y = x then z else s.host.getVar y := by
  simp only [HostAgent.getVar, State.setVar, State.advance, lookup_insert]
  split <;> rfl

theorem getVar_assigned_self (s : State) (x : Nat) (z : Int) : (s.setVar x z).advance.host.getVar x = z := by
  rw [getVar_assigned, if_pos rfl]

theorem getVar_assigned_of_ne (s : State) (x : Nat) (z : Int) {y : Nat} (h : y ≠ x) :
    (s.setVar x z).advance.host.getVar y = s.host.getVar y := by
  rw [getVar_assigned, if_neg h]

/-! ### Labels -/

/-- A label that is found stands at the line found. -/
theorem getElem?_of_findLabel {prog : List Line} {l pos : Nat} (h : findLabel prog l = some pos) :
    prog[pos]? = some (.label l) := by
  induction prog generalizing pos with
  | nil => cases h
  | cons line rest ih =>
    unfold findLabel at h
    split at h
    · next hline => cases h; simp [hline]
    · obtain ⟨n, hn, rfl⟩ := Option.map_eq_some_iff.1 h
      simpa using ih hn

theorem mem_labelsOf_of_label_mem {prog : List Line} {l : Nat} (h : .label l ∈ prog) : l ∈ labelsOf prog := by
  induction prog with
  | nil => cases h
  | cons line rest ih =>
    rcases List.mem_cons.1 h with rfl | hrest
    · exact List.mem_cons_self
    · cases line with
      | label => exact List.mem_cons_of_mem _ (ih hrest)
      | rd | wr | assign | branch | jump | fits | halt => exact ih hrest

theorem findLabel_eq_none {prog : List Line} {l : Nat} (h : l ∉ labelsOf prog) : findLabel prog l = none := by
  cases hf : findLabel prog l with
  | none => rfl
  | some pos => exact absurd (mem_labelsOf_of_label_mem (List.mem_of_getElem? (getElem?_of_findLabel hf))) h

theorem gotoLabel_of_mem {l : Nat} (h : l ∈ labelsOf s.host.prog) :
    ∃ pos, s.host.prog[pos]? = some (.label l) ∧ gotoLabel l s = .next (s.gotoLine pos) := by
  obtain ⟨pos, hpos⟩ := exists_findLabel_of_mem h
  exact ⟨pos, getElem?_of_findLabel hpos, by simp [gotoLabel, hpos]⟩

theorem gotoLabel_of_not_mem {l : Nat} (h : l ∉ labelsOf s.host.prog) : gotoLabel l s = .refused .undefinedLabel := by
  simp [gotoLabel, findLabel_eq_none h]

/-! ### Lines -/

/-- A word-aligned word inside the window is accepted (20_memory.md R41, R44). -/
theorem refusedTransaction_inWindow {off : Nat} (hal : off % 4 = 0) (hin : off < 0x200000) :
    refusedTransaction off 4 = none := by
  rw [refusedTransaction_aligned hal, if_neg (show ¬ windowSize ≤ off from Nat.not_le_of_lt hin)]

/-- A read line is one read transaction into a variable, wherever the transaction is defined. -/
theorem hostLine_rd {x off : Nat} (h : refusedTransaction off 4 = none) :
    hostLine (.rd x off 4) s = .next (((s.hostRead off).2.setVar x ((s.hostRead off).1.toNat : Int)).advance) := by
  simp [hostLine, hostRd, h]

theorem hostLine_wr {off : Nat} {e : Expr} (h : refusedTransaction off 4 = none) :
    hostLine (.wr off 4 e) s = .next (s.hostWrite off (busValue (e.eval s.host))).advance := by
  simp [hostLine, hostWr, h]

/-- A non-negative integer goes on the bus modulo 2^32. -/
theorem busValue_of_nonneg {z : Int} (h : 0 ≤ z) : busValue z = BitVec.ofNat 32 (z.toNat % 2 ^ 32) := by
  obtain ⟨n, rfl⟩ := Int.eq_ofNat_of_zero_le h
  have hmod : hostMod (n : Int) (2 ^ 32) = ((n % 2 ^ 32 : Nat) : Int) := by
    rw [hostMod, if_pos ⟨h, by decide⟩]; rfl
  rw [busValue, hmod, BitVec.ofInt_natCast, Int.toNat_natCast]

theorem hostLine_branch (e : Expr) (l : Nat) :
    hostLine (.branch e l) s = if e.eval s.host = 0 then .next s.advance else hostLine (.jump l) s := by
  by_cases h : e.eval s.host = 0 <;> simp [hostLine, countsAsTrue, h]

theorem hostLine_fits (e : Expr) :
    hostLine (.fits e) s =
      if 0 ≤ e.eval s.host ∧ e.eval s.host < 2 ^ s.cfg.width then .next s.advance else .refused .valueDoesNotFit := rfl

/-- Settles O53: line by line. -/
theorem hostLinesActAsTheNotationSays : Obligations.HostLinesActAsTheNotationSays := by
  intro s
  refine ⟨fun _ => rfl, fun x off hal hin => ?_, fun off e hal hin hz => ?_, fun x e => ?_, fun e l h => ?_,
    fun e l h => ?_, fun l => gotoLabel_of_mem, fun l => gotoLabel_of_not_mem, fun e hlo hhi => ?_, fun e h => ?_, rfl⟩
  · obtain ⟨n, hn⟩ := hostRead_state s off
    refine ⟨_, hostLine_rd (refusedTransaction_inWindow hal hin), ?_⟩
    rw [hn]
    exact ⟨rfl, getVar_assigned_self _ x _, fun y => getVar_assigned_of_ne _ x _, rfl⟩
  · rw [hostLine_wr (refusedTransaction_inWindow hal hin), busValue_of_nonneg hz]
  · exact ⟨_, rfl, rfl, getVar_assigned_self s x _, fun y => getVar_assigned_of_ne s x _, rfl⟩
  · rw [hostLine_branch, if_neg h]
  · rw [hostLine_branch, if_pos h]; rfl
  · rw [hostLine_fits, if_pos ⟨hlo, hhi⟩]; rfl
  · rw [hostLine_fits, if_neg (by omega)]

/-! ### Operators -/

theorem hostDiv_of_range {x y : Int} (hx : 0 ≤ x) (hy : 1 ≤ y) : hostDiv x y = x / y := if_pos ⟨hx, hy⟩

theorem hostMod_of_range {x y : Int} (hx : 0 ≤ x) (hy : 1 ≤ y) : hostMod x y = x % y := if_pos ⟨hx, hy⟩

theorem hostShr_natCast (a k : Nat) : hostShr a k = ((a / 2 ^ k : Nat) : Int) := by
  simp [hostShr, Nat.shiftRight_eq_div_pow]

theorem hostAnd_natCast (a b : Nat) : hostAnd a b = ((a &&& b : Nat) : Int) := by
  simp [hostAnd]

/-- The quotient and the remainder of 00_scope.md R8, by the equation that fixes them. -/
theorem hostDiv_hostMod_spec {x y : Int} (hx : 0 ≤ x) (hy : 1 ≤ y) :
    x = hostDiv x y * y + hostMod x y ∧ 0 ≤ hostDiv x y ∧ 0 ≤ hostMod x y ∧ hostMod x y < y := by
  have hpos : 0 < y := hy
  rw [hostDiv_of_range hx hy, hostMod_of_range hx hy]
  exact ⟨(Int.ediv_mul_add_emod x y).symm, Int.ediv_nonneg hx hpos.le, Int.emod_nonneg x hpos.ne',
    Int.emod_lt_of_pos x hpos⟩

theorem ofTruth_decide (p : Prop) [Decidable p] : ofTruth (decide p) = if p then 1 else 0 := by
  simp [ofTruth]

theorem ofTruth_ne (x y : Int) : ofTruth (x != y) = if x = y then 0 else 1 := by
  simp [ofTruth]

theorem ofTruth_and (x y : Int) :
    ofTruth (countsAsTrue x && countsAsTrue y) = if x = 0 ∨ y = 0 then 0 else 1 := by
  simp only [ofTruth, countsAsTrue, Bool.and_eq_true, bne_iff_ne, ne_eq, ← not_or, ite_not]

theorem ofTruth_or (x y : Int) :
    ofTruth (countsAsTrue x || countsAsTrue y) = if x = 0 ∧ y = 0 then 0 else 1 := by
  simp only [ofTruth, countsAsTrue, Bool.or_eq_true, bne_iff_ne, ne_eq, ← not_and_or, ite_not]

/-- Settles O54: operator by operator. -/
theorem hostOperatorsComputeAsTheNotationSays : Obligations.HostOperatorsComputeAsTheNotationSays := by
  rintro h l r x y hx hy
  have hbin : ∀ op, (Expr.bin op l r).eval h = op.eval x y := fun op => by rw [Expr.eval, hx, hy]
  simp only [hbin]
  refine ⟨fun _ => rfl, fun _ => rfl, rfl, rfl, rfl, hostDiv_hostMod_spec, ofTruth_decide _, ofTruth_ne x y,
    ofTruth_decide _, ofTruth_decide _, ofTruth_decide _, ofTruth_decide _, ofTruth_and x y, ofTruth_or x y, ?_, ?_⟩
  · rintro a k rfl rfl
    exact hostShr_natCast a k
  · rintro a b rfl rfl
    exact ⟨a &&& b, hostAnd_natCast a b, fun i => Nat.testBit_and a b i⟩

end Sys2Proof.Machine
end

section
/-! PROOFS. The arithmetic kernel (40_arith_kernel.md): what GCD, MODINV and MODPOW complete with (R82 to R87), that every
result fits (R88), and that two MODPOW commands with a keypair of distinct primes give the value back (R90). -/

namespace Sys2Proof.Machine

/-! ### The arithmetic: the greatest common divisor (00_scope.md R10), and RSA over three primes -/

/-- The second gcd equation of 00_scope.md R10. -/
theorem gcd_eq_gcd_mod (a b : Nat) : Nat.gcd a b = Nat.gcd b (a % b) := by
  rw [Nat.gcd_comm a b, Nat.gcd_rec, Nat.gcd_comm]

/-- A divisor of 0 may be any number, so the bound is the greater operand and not the lesser. -/
theorem gcd_le_max (a b : Nat) : Nat.gcd a b ≤ max a b := by
  rcases Nat.eq_zero_or_pos a with rfl | ha
  · rw [Nat.gcd_zero_left]
    exact le_max_right 0 b
  · exact le_max_of_le_left (Nat.gcd_le_left b ha)

/-- Fermat's little theorem for an exponent that is 1 modulo `p - 1`; multiples of `p` need no exception. -/
theorem pow_modEq_self {p k : Nat} (hp : p.Prime) (hk : 1 ≤ k) (hdvd : p - 1 ∣ k - 1) (v : Nat) :
    v ^ k ≡ v [MOD p] := by
  have hpow : (v : Int) ^ k ≡ (v : Int) ^ 1 [ZMOD p] := Int.ModEq.pow_eq_pow hp hdvd hk one_pos v
  rw [pow_one] at hpow
  exact_mod_cast hpow

/-- RSA over the three distinct primes p, q and 31: the exponents cancel modulo each prime, so modulo their product. -/
theorem pow_pow_mod_eq_self {p q e d v : Nat} (hp : p.Prime) (hq : q.Prime) (hpq : p ≠ q) (hp31 : p ≠ 31)
    (hq31 : q ≠ 31) (hkey : e * d % ((p - 1) * (q - 1) * 30) = 1) (hv : v < p * q * 31) :
    (v ^ e % (p * q * 31)) ^ d % (p * q * 31) = v := by
  have h31 : Nat.Prime 31 := by norm_num
  have hone : 1 ≤ e * d := hkey ▸ Nat.mod_le _ _
  have hdvd : (p - 1) * (q - 1) * 30 ∣ e * d - 1 := by
    simpa only [hkey] using Nat.dvd_sub_mod (n := (p - 1) * (q - 1) * 30) (e * d)
  have hmodp : v ^ (e * d) ≡ v [MOD p] :=
    pow_modEq_self hp hone (dvd_trans ⟨(q - 1) * 30, mul_assoc _ _ _⟩ hdvd) v
  have hmodq : v ^ (e * d) ≡ v [MOD q] :=
    pow_modEq_self hq hone (dvd_trans ⟨(p - 1) * 30, by ring⟩ hdvd) v
  have hmod31 : v ^ (e * d) ≡ v [MOD 31] := pow_modEq_self h31 hone (dvd_trans (dvd_mul_left 30 _) hdvd) v
  have hcop : Nat.Coprime p q := (Nat.coprime_primes hp hq).2 hpq
  have hcop31 : Nat.Coprime (p * q) 31 :=
    Nat.Coprime.mul_left ((Nat.coprime_primes hp h31).2 hp31) ((Nat.coprime_primes hq h31).2 hq31)
  have hmodn : v ^ (e * d) ≡ v [MOD p * q * 31] :=
    (Nat.modEq_and_modEq_iff_modEq_mul hcop31).1 ⟨(Nat.modEq_and_modEq_iff_modEq_mul hcop).1 ⟨hmodp, hmodq⟩, hmod31⟩
  calc (v ^ e % (p * q * 31)) ^ d % (p * q * 31)
      = v ^ (e * d) % (p * q * 31) := by rw [← Nat.pow_mod, pow_mul]
    _ = v % (p * q * 31) := hmodn
    _ = v := Nat.mod_eq_of_lt hv

variable {s : State} {p : Pending}

/-! ### GCD (R82) -/

/-- Settles O14: the function is the greatest common divisor, which meets both equations. -/
theorem gcdCompletesWithTheGcd : Obligations.GcdCompletesWithTheGcd :=
  ⟨decode_encode .gcd, Nat.gcd, Nat.gcd_zero_right, fun a b _ => gcd_eq_gcd_mod a b,
    fun a b => ⟨Nat.gcd_comm a b, gcd_le_max a b⟩, by decide, fun _ _ => execGcd_some⟩

/-! ### MODINV (R83, R84) -/

/-- Settles O15: by the greatest common divisor and the modulus; the inverse is `modInv`, which is unique. -/
theorem modinvCompletesWithTheInverse : Obligations.ModinvCompletesWithTheInverse := by
  refine ⟨decode_encode .modinv, fun s p hp => ⟨execModinv_noInverse hp, ?_, fun hgcd hpair => ?_⟩⟩
  · rintro ⟨ha, hm⟩
    exact execModinv_zeroModulus hp (by rw [ha, Nat.gcd_one_left]) hm
  · have hm : p.m ≠ 0 := fun hm => hpair ⟨by rwa [hm, Nat.gcd_zero_right] at hgcd, hm⟩
    have hlt : modInv p.a p.m < p.m := modInv_lt p.a hm
    have hinv : p.a * modInv p.a p.m % p.m = 1 % p.m := mul_modInv hm hgcd
    exact ⟨_, hlt, hinv, fun y hy hay => inverse_unique hgcd hy hlt hay hinv, execModinv_some hp hgcd hm⟩

/-! ### MODPOW (R85 to R87) -/

/-- MODPOW's completion for a modulus of at least 1, in the terms of R86. -/
theorem execModpow_power (hp : s.pend = some p) (hm : p.m ≠ 0) :
    exec .modpow s = .next (State.complete { s with r := p.a ^ p.e % p.m } .none) := by
  rw [execModpow_some hp hm, powMod_eq]

/-- Settles O16: by the modulus; the clause E' = 0 is the power at that exponent. -/
theorem modpowCompletesWithThePower : Obligations.ModpowCompletesWithThePower := by
  refine ⟨decode_encode .modpow, fun s p hp => ⟨execModpow_zeroModulus hp, execModpow_power hp, fun hm he => ?_⟩⟩
  rw [execModpow_power hp hm, he, pow_zero]
  rfl

/-! ### The range of the results (R88) -/

/-- A failed completion is told from a successful one by ERRCODE (60_exceptions.md R99). -/
theorem complete_errcode_ne_zero (s : State) {code : ErrorCode} (h : code.isError = true) :
    (s.complete code).errcode ≠ 0#8 := ErrorCode.isError_toByte h

/-- A modulus of 0 makes MODINV fail, so a result is below the modulus. -/
theorem execModinv_lt (hp : s.pend = some p) :
    ∃ t, exec .modinv s = .next t ∧ (t.errcode = 0#8 → t.r < p.m) := by
  by_cases hgcd : Nat.gcd p.a p.m = 1
  · by_cases hm : p.m = 0
    · exact ⟨_, execModinv_zeroModulus hp hgcd hm, fun h => absurd h (complete_errcode_ne_zero s rfl)⟩
    · exact ⟨_, execModinv_some hp hgcd hm, fun _ => modInv_lt p.a hm⟩
  · exact ⟨_, execModinv_noInverse hp hgcd, fun h => absurd h (complete_errcode_ne_zero s rfl)⟩

theorem execModpow_lt (hp : s.pend = some p) :
    ∃ t, exec .modpow s = .next t ∧ (t.errcode = 0#8 → t.r < p.m) := by
  by_cases hm : p.m = 0
  · exact ⟨_, execModpow_zeroModulus hp hm, fun h => absurd h (complete_errcode_ne_zero s rfl)⟩
  · exact ⟨_, execModpow_some hp hm, fun _ => powMod_lt p.a p.e hm⟩

/-- R keeps within W bits at every completion: it is left, or takes a result that fits. -/
theorem exec_r_lt (hp : s.pend = some p) (hfits : p.Fits s.cfg.width) (hr : s.r < 2 ^ s.cfg.width) {i : Instr} {t : State}
    (h : exec i s = .next t) : t.r < 2 ^ s.cfg.width := by
  rcases exec_cases hp i with ⟨code, -, he⟩ | ⟨v, -, hv, he⟩ | ⟨-, -, -, he⟩ <;> cases he.symm.trans h
  · exact hr
  · exact hv _ hfits
  · exact hr

/-- Settles O17: command by command, and R by what a completion can do. -/
theorem resultsNeedNoTruncation : Obligations.ResultsNeedNoTruncation := fun _ p hp =>
  ⟨⟨_, execGcd_some hp, gcd_le_max p.a p.b⟩, execModinv_lt hp, execModpow_lt hp,
    fun hfits hr _ _ => exec_r_lt hp hfits hr⟩

/-! ### The cipher's round trip (R90) -/

/-- Settles O18: both commands complete with a power, and the powers undo each other; for p = q = 2 they are computed. -/
theorem scalarCipherRoundTrip : Obligations.ScalarCipherRoundTrip := by
  constructor
  · intro p q e d v hp hq hpq hp31 hq31 hkey hv s s' x x' hx hxa hxe hxm
    have hn : p * q * 31 ≠ 0 := Nat.ne_zero_of_lt hv
    refine ⟨_, execModpow_power hx (hxm ▸ hn), rfl, fun hx' hxa' hxe' hxm' => ?_⟩
    refine ⟨_, execModpow_power hx' (hxm' ▸ hn), rfl, ?_⟩
    calc x'.a ^ x'.e % x'.m = (x.a ^ x.e % x.m) ^ x'.e % x'.m := congrArg (· ^ x'.e % x'.m) hxa'
      _ = (v ^ e % (p * q * 31)) ^ d % (p * q * 31) := by rw [hxa, hxe, hxm, hxe', hxm']
      _ = v := pow_pow_mod_eq_self hp hq hpq hp31 hq31 hkey hv
  · intro s s' x x' hx hxa hxe hxm hx' hxa' hxe' hxm'
    refine ⟨⟨_, execModpow_power hx (by simp [hxm]), ?_⟩, _, execModpow_power hx' (by simp [hxm']), ?_⟩
    · simp [hxa, hxe, hxm]
    · simp [hxa', hxe', hxm']

end Sys2Proof.Machine
end

section
/-! PROOFS. The element mapper (41_element_mapper.md): what MAP completes with and leaves in each element (R92 to R94), that
its lanes are independent (R91), and that two MAPs with a keypair of distinct primes give every element back (R97). -/

namespace Sys2Proof.Machine

/-! ### The completion and the order of its errors (R92 to R94) -/

/-- A defined element below the count becomes its power, in the terms of 00_scope.md R10. -/
theorem readElem_mapLanes_pow {nw e m n i v : Nat} {mem : Memory} (hnw : 1 ≤ nw) (hm : m ≠ 0) (hfit : m < 2 ^ (32 * nw))
    (hi : i < n) (hv : readElem nw mem i = some v) : readElem nw (mapLanes nw e m mem n) i = some (v ^ e % m) := by
  rw [readElem_mapLanes_lt hnw hm hfit.le mem n hi, hv, Option.map_some, powMod_eq]

/-- Settles O19: by the modulus and the count; on success each clause is what the lanes do to an element or to a byte. -/
theorem mapCompletesWithThePowers : Obligations.MapCompletesWithThePowers := by
  refine ⟨decode_encode .map, fun s p hc hp hfits =>
    ⟨execMap_zeroModulus hp, execMap_lenRange hp, fun hm hl => ⟨_, execMap_some hp hm hl, ?_, ?_, ?_⟩⟩⟩
  · obtain ⟨hnw, -⟩ := hc
    obtain ⟨-, -, -, hfit⟩ := hfits
    exact fun i v hi hv => readElem_mapLanes_pow hnw hm hfit hi hv
  · exact fun i j hi hundef hj => readWord_mapLanes_undefined _ hundef hj _ hi
  · exact fun q hq => readByte_mapLanes_other _ _ _ _ _ hq

/-- Settles O20: the decoder comes before the command's checks, and each outcome is the completion with its code. -/
theorem mapErrorOrder : Obligations.MapErrorOrder := by
  refine fun s p hp => ⟨fun why hd => ?_, fun hd hm => ?_, fun hd hm hl => ?_, fun hd hm hl => ?_⟩
  · exact ⟨_, engineComplete_illegal hp hd, rfl, rfl⟩
  · exact ⟨_, (engineComplete_legal hp hd).trans (execMap_zeroModulus hp hm), rfl, rfl⟩
  · exact ⟨_, (engineComplete_legal hp hd).trans (execMap_lenRange hp hm hl), rfl, rfl⟩
  · exact ⟨_, (engineComplete_legal hp hd).trans (execMap_some hp hm hl), rfl⟩

/-- Settles O21: a count of 0 is within every depth, and no lane runs. -/
theorem mapOfAnEmptySequence : Obligations.MapOfAnEmptySequence := by
  intro s p hp hlen hm
  have hzero : p.len.toNat = 0 := by rw [hlen]; rfl
  rw [execMap_some hp (Nat.ne_zero_of_lt hm) (hzero ▸ Nat.zero_le _), hzero]
  rfl

/-! ### The independence of the lanes (R91) -/

/-- Each word of a run after a value is written to it, whatever the buffer held; it need not fit (20_memory.md R46). -/
theorem readWord_writeWords_self {n k j : Nat} (mem : Memory) (v : Nat) (hj : j < n) :
    readWord (writeWords mem k n v) (elemOff (k + j)) = some (wordAt v j) := by
  induction n generalizing k j mem v with
  | zero => exact absurd hj (Nat.not_lt_zero j)
  | succ n ih =>
    unfold writeWords
    cases j with
    | zero =>
      have hfirst : BitVec.ofNat 32 v = wordAt v 0 := by simp [wordAt]
      rw [readWord_writeWords_other n (k + 1) _ _ (by omega), hfirst]
      exact readWord_writeWord_self _ _ _
    | succ j =>
      have hshift : wordAt (v / 2 ^ 32) j = wordAt v (j + 1) := by
        rw [wordAt, wordAt, Nat.div_div_eq_div_mul, pow_word, mul_comm]
      rw [← hshift, ← ih _ _ (Nat.lt_of_succ_lt_succ hj), show k + (j + 1) = k + 1 + j by omega]

/-- Two buffers hold the same words in element `i`, written or not. -/
def SameElem (nw i : Nat) (mem mem' : Memory) : Prop :=
  ∀ j, j < nw → readWord mem (elemOff (i * nw + j)) = readWord mem' (elemOff (i * nw + j))

section SameElem
variable {nw i : Nat} {mem mem' : Memory}

theorem SameElem.readElem_eq (h : SameElem nw i mem mem') : readElem nw mem i = readElem nw mem' i :=
  readWords_congr _ _ fun k hlow hhigh => by
    have hk := h (k - i * nw) (by omega)
    rwa [Nat.add_sub_cancel' hlow] at hk

/-- A lane writes its own element from that element alone, and no other. -/
theorem SameElem.afterLane (h : SameElem nw i mem mem') (e m i' : Nat) :
    SameElem nw i (mapLane nw e m mem i') (mapLane nw e m mem' i') := by
  intro j hj
  by_cases hi : i = i'
  · subst hi
    have hread := h.readElem_eq
    cases hv : readElem nw mem i with
    | none => rw [readWord_mapLane_undefined mem hv hj, readWord_mapLane_undefined mem' (hread ▸ hv) hj]
    | some v =>
      rw [mapLane, mapLane, ← hread, hv]
      exact (readWord_writeWords_self mem _ hj).trans (readWord_writeWords_self mem' _ hj).symm
  · have hout : i * nw + j < i' * nw ∨ i' * nw + nw ≤ i * nw + j := by
      rcases Nat.lt_or_gt_of_ne hi with hlt | hgt
      · have := elem_le nw hlt; omega
      · have := elem_le nw hgt; omega
    rw [readWord_mapLane_other _ _ _ _ _ hout, readWord_mapLane_other _ _ _ _ _ hout, h j hj]

theorem SameElem.afterLanes (h : SameElem nw i mem mem') (e m : Nat) :
    ∀ n, SameElem nw i (mapLanes nw e m mem n) (mapLanes nw e m mem' n)
  | 0 => h
  | n + 1 => (h.afterLanes e m n).afterLane e m n

end SameElem

/-- Settles O22: both blocks fail the same check and leave the element, or both run the same lanes. -/
theorem mapLanesAreIndependent : Obligations.MapLanesAreIndependent := by
  intro s s' p p' i hc hp hp' he hm hlen hsame
  by_cases hzero : p.m = 0
  · exact ⟨_, _, execMap_zeroModulus hp hzero, execMap_zeroModulus hp' (hm.trans hzero), hsame⟩
  · have hzero' : p'.m ≠ 0 := hm ▸ hzero
    by_cases hl : p.len.toNat ≤ s.cfg.depth
    · have hl' : p'.len.toNat ≤ s'.cfg.depth := by rwa [hlen, hc]
      refine ⟨_, _, execMap_some hp hzero hl, execMap_some hp' hzero' hl', ?_⟩
      rw [hc, he, hm, hlen]
      exact SameElem.afterLanes hsame p.e p.m p.len.toNat
    · have hl' : s'.cfg.depth < p'.len.toNat := by rw [hlen, hc]; exact Nat.lt_of_not_le hl
      exact ⟨_, _, execMap_lenRange hp hzero (Nat.lt_of_not_le hl), execMap_lenRange hp' hzero' hl', hsame⟩

/-! ### The sequence's round trip (R97) -/

/-- A keypair of R90 gives every value back reduced: a value and the reduced one have the same power modulo n. -/
theorem pow_pow_mod_eq_mod {p q e d : Nat} (v : Nat) (hp : p.Prime) (hq : q.Prime) (hpq : p ≠ q) (hp31 : p ≠ 31)
    (hq31 : q ≠ 31) (hkey : e * d % ((p - 1) * (q - 1) * 30) = 1) :
    (v ^ e % (p * q * 31)) ^ d % (p * q * 31) = v % (p * q * 31) := by
  have hn : 0 < p * q * 31 := Nat.mul_pos (Nat.mul_pos hp.pos hq.pos) (by decide)
  rw [Nat.pow_mod v]
  exact pow_pow_mod_eq_self hp hq hpq hp31 hq31 hkey (Nat.mod_lt v hn)

/-- Settles O23: both commands replace the element by a power, and the powers undo each other modulo n. -/
theorem sequenceCipherRoundTrip : Obligations.SequenceCipherRoundTrip := by
  intro p q e d hp hq hpq hp31 hq31 hkey s x hc hx hfits hxe hxm hl
  obtain ⟨hnw, -⟩ := hc
  obtain ⟨-, -, -, hfit⟩ := hfits
  have hm : x.m ≠ 0 := by rw [hxm]; exact Nat.mul_ne_zero (Nat.mul_ne_zero hp.ne_zero hq.ne_zero) (by decide)
  refine ⟨_, execMap_some hx hm hl, rfl, fun s' x' hcfg helem hx' hxe' hxm' hlen' => ?_⟩
  refine ⟨_, execMap_some hx' (hxm' ▸ hm) (by rwa [hlen', hcfg]), rfl, fun i v hi hv => ?_⟩
  rw [hcfg, helem, hxe', hxm', hlen']
  have hback : readElem s.cfg.nw (mapLanes s.cfg.nw d x.m (mapLanes s.cfg.nw x.e x.m s.elem x.len.toNat) x.len.toNat) i =
      some (v % (p * q * 31)) := by
    rw [readElem_mapLanes_pow hnw hm hfit hi (readElem_mapLanes_pow hnw hm hfit hi hv), hxe, hxm,
      pow_pow_mod_eq_mod v hp hq hpq hp31 hq31 hkey]
  exact ⟨hback, fun hlt => hback.trans (by rw [Nat.mod_eq_of_lt hlt])⟩

end Sys2Proof.Machine
end

section
/-! PROOFS. The engine's completion and its errors (60_exceptions.md): the code it reports (R106), what it sets and leaves
(R99), what a failed command leaves (R100), and that the engine's step is this completion (R99, 30_encoding.md R72). -/

namespace Sys2Proof.Machine

variable {s t : State} {p : Pending}

/-! ### The reported code (R106) -/

/-- The code a command's body ends with, by the latched operands and the configuration: items 2 to 5 of R106. -/
def commandCode (c : Params) (p : Pending) : Instr → ErrorCode
  | .gcd => .none
  | .modinv => if Nat.gcd p.a p.m ≠ 1 then .noInverse else if p.m = 0 then .zeroModulus else .none
  | .modpow => if p.m = 0 then .zeroModulus else .none
  | .map => if p.m = 0 then .zeroModulus else if c.depth < p.len.toNat then .lenRange else .none

/-- The code a completion reports: an illegal word comes before every other check (R106, item 1). -/
def reportedCode (c : Params) (p : Pending) : ErrorCode :=
  match decode p.cmd with
  | .illegal _ => .illegalCmd
  | .legal i => commandCode c p i

theorem exec_reports (hp : s.pend = some p) (i : Instr) :
    ∃ t, exec i s = .next t ∧ t.errcode = (commandCode s.cfg p i).toByte := by
  cases i with
  | gcd => exact ⟨_, execGcd_some hp, rfl⟩
  | modinv =>
    by_cases hg : Nat.gcd p.a p.m = 1
    · by_cases hm : p.m = 0
      · exact ⟨_, execModinv_zeroModulus hp hg hm, by rw [commandCode, if_neg (not_not.2 hg), if_pos hm]; rfl⟩
      · exact ⟨_, execModinv_some hp hg hm, by simp [commandCode, hg, hm]⟩
    · exact ⟨_, execModinv_noInverse hp hg, by simp [commandCode, hg]⟩
  | modpow =>
    by_cases hm : p.m = 0
    · exact ⟨_, execModpow_zeroModulus hp hm, by simp [commandCode, hm]⟩
    · exact ⟨_, execModpow_some hp hm, by simp [commandCode, hm]⟩
  | map =>
    by_cases hm : p.m = 0
    · exact ⟨_, execMap_zeroModulus hp hm, by simp [commandCode, hm]⟩
    · by_cases hl : s.cfg.depth < p.len.toNat
      · exact ⟨_, execMap_lenRange hp hm hl, by simp [commandCode, hm, hl]⟩
      · exact ⟨_, execMap_some hp hm (Nat.le_of_not_lt hl), by simp [commandCode, hm, hl]⟩

theorem engineComplete_reports (hp : s.pend = some p) :
    ∃ t, engineComplete s = .next t ∧ t.errcode = (reportedCode s.cfg p).toByte := by
  unfold reportedCode
  cases hd : decode p.cmd with
  | illegal why => exact ⟨_, engineComplete_illegal hp hd, rfl⟩
  | legal i => rw [engineComplete_legal hp hd]; exact exec_reports hp i

/-- Settles O24: `reportedCode`, read off for each outcome of the decoder. -/
theorem errorCodePriority : Obligations.ErrorCodePriority := by
  intro s p hp
  obtain ⟨t, ht, hcode⟩ := engineComplete_reports hp
  have hlegal : ∀ i, decode p.cmd = .legal i → t.errcode = (commandCode s.cfg p i).toByte := fun i hd => by
    rw [hcode, reportedCode, hd]
  refine ⟨t, ht, fun why hd => ?_, hlegal .gcd, fun hd => ?_, fun hd => ?_, fun hd => ?_⟩
  · rw [hcode, reportedCode, hd]
    rfl
  all_goals
    simp only [hlegal _ hd, commandCode, apply_ite ErrorCode.toByte]
    rfl

/-! ### What a completion sets and leaves (R99) -/

/-- A completion writes R, the element buffer and the status, ERR by the code, and no other field. -/
theorem engineComplete_eq_update (hp : s.pend = some p) (h : engineComplete s = .next t) :
    t = { s with
      r := t.r, elem := t.elem, errcode := t.errcode,
      err := decide (t.errcode ≠ 0#8), done := true, busy := false, pend := none } := by
  obtain ⟨-, -, herr⟩ := engineComplete_status (by simp [hp]) h
  rw [← herr]
  rcases engineComplete_next_cases h with ⟨hnone, -⟩ | ⟨q, -, ⟨c, -, rfl⟩ | ⟨-, v, -, rfl⟩ | ⟨-, -, rfl⟩⟩
  · cases hp.symm.trans hnone
  all_goals rfl

/-- A completion writes neither R nor the element buffer, or it succeeds: then a kernel command writes R only, and MAP
writes the first LEN' elements only. -/
theorem engineComplete_writes (hp : s.pend = some p) (h : engineComplete s = .next t) :
    (t.r = s.r ∧ t.elem = s.elem) ∨
    (t.errcode = 0#8 ∧ decode p.cmd ∈ [Decoded.legal .gcd, .legal .modinv, .legal .modpow] ∧ t.elem = s.elem) ∨
    (t.errcode = 0#8 ∧ decode p.cmd = .legal .map ∧ t.r = s.r ∧
      ∀ q, q < elemBase ∨ elemOff (p.len.toNat * s.cfg.nw) ≤ q → readByte t.elem q = readByte s.elem q) := by
  rcases engineComplete_next_cases h with ⟨hnone, -⟩ | ⟨q, hq, hcases⟩
  · cases hp.symm.trans hnone
  · cases hp.symm.trans hq
    rcases hcases with ⟨c, -, rfl⟩ | ⟨hd, v, -, rfl⟩ | ⟨hd, -, rfl⟩
    · exact .inl ⟨rfl, rfl⟩
    · exact .inr (.inl ⟨rfl, hd, rfl⟩)
    · exact .inr (.inr ⟨rfl, hd, rfl, fun _ hout => readByte_mapLanes_other _ _ _ _ _ hout⟩)

/-- Settles O25: the record by `engineComplete_eq_update`, R and the elements by `engineComplete_writes`. -/
theorem everyCompletionSetsTheStatus : Obligations.EveryCompletionSetsTheStatus := by
  intro s p hp
  obtain ⟨t, ht, hcode⟩ := engineComplete_reports hp
  refine ⟨t, ht, engineComplete_eq_update hp ht, hcode ▸ ErrorCode.toByte_le _, ?_⟩
  rcases engineComplete_writes hp ht with ⟨hr, helem⟩ | ⟨hok, hd, helem⟩ | ⟨hok, hd, hr, hbytes⟩
  · simp [hr, helem]
  · exact ⟨fun _ => helem, fun hbad => absurd hd (hbad.resolve_left (not_not.2 hok)), fun _ => helem, by simp [helem]⟩
  · exact ⟨absurd hr, fun _ => hr, fun hbad => absurd hd (hbad.resolve_left (not_not.2 hok)), hbytes⟩

/-! ### Failed commands (R100) -/

/-- A failed command has no effect but its code and the status. -/
theorem engineComplete_of_failed (hp : s.pend = some p) (h : engineComplete s = .next t) (hfail : t.errcode ≠ 0#8) :
    t = { s with errcode := t.errcode, err := true, done := true, busy := false, pend := none } := by
  have ht := engineComplete_eq_update hp h
  rcases engineComplete_writes hp h with ⟨hr, helem⟩ | ⟨hok, -⟩ | ⟨hok, -⟩
  · rwa [hr, helem, decide_eq_true hfail] at ht
  · exact absurd hok hfail
  · exact absurd hok hfail

/-- Settles O26: the code is a function of PEND and the configuration, so it is reported, and fails, in every such block. -/
theorem failedCommandLeavesOnlyItsCode : Obligations.FailedCommandLeavesOnlyItsCode := by
  intro s p hp
  obtain ⟨t, ht, hcode⟩ := engineComplete_reports hp
  refine ⟨t, ht, fun hfail => ?_⟩
  have hsame := engineComplete_of_failed hp ht hfail
  refine ⟨hsame, fun v => ?_, fun u hcfg hu => ?_⟩
  · have hidle : t.busy = false := by rw [hsame]
    rw [hostWrite_cmd_idle v hidle]
    rfl
  · obtain ⟨t', ht', hcode'⟩ := engineComplete_reports hu
    have hagain : t'.errcode = t.errcode := by rw [hcode', hcode, hcfg]
    have hsame' := engineComplete_of_failed hu ht' (hagain ▸ hfail)
    exact ⟨t', ht', hagain, by rw [hsame'], by rw [hsame']⟩

/-! ### The engine's step (R99) -/

/-- Settles O5: the engine moves, and its completion is decided by the decoder. -/
theorem engineStepRunsTheDecodedCommand : Obligations.EngineStepRunsTheDecodedCommand := by
  intro s p hs hp
  have hstep := step_of_engine (nextMover_engine hs hp)
  exact ⟨hstep, fun _ hd => hstep.trans (engineComplete_legal (s := s.popMove) hp hd),
    fun _ hd => hstep.trans (engineComplete_illegal (s := s.popMove) hp hd)⟩

end Sys2Proof.Machine
end

section
/-! PROOFS. Reset (70_reset_and_hazards.md): the step of a reset event (R120, R121), the state a run starts in (R122), and
that this state meets the invariant. -/

namespace Sys2Proof.Machine

variable {s : State}

theorem step_of_reset (hm : nextMover s = .reset) : step s = .next s.popMove.resetBlock := by rw [step, hm]; rfl

/-- ID is a constant of the block and PARAM reads the configuration, so a reset changes neither (10_state.md R19, R20). -/
theorem hostRead_id (s : State) : s.hostRead 0x000000 = (idWord, s) := hostRead_of_some rfl

theorem hostRead_param (s : State) : s.hostRead 0x000004 = (Params.paramWord s.cfg, s) := hostRead_of_some rfl

/-- Settles O9: the event is a reset of the state with that event taken off the order, and no byte is listed in it. -/
theorem resetEventSetsEveryResetValue : Obligations.ResetEventSetsEveryResetValue := by
  intro s rest hs
  have hmove : nextMover s = .reset := nextMover_of_head (by rw [hs, List.head?_cons])
  refine ⟨s.popMove.resetBlock, step_of_reset hmove, ?_, fun _ => rfl, rfl, ?_, ?_⟩
  · simp [State.resetBlock, State.popMove, hs]
  · rw [hostRead_id, hostRead_id]
  · rw [hostRead_param, hostRead_param, State.resetBlock_cfg, State.popMove_cfg]

/-- Settles O10: each field by `resetWith`; without PEND the engine's turn passes. -/
theorem stateAfterReset : Obligations.StateAfterReset := fun _ =>
  ⟨rfl, rfl, rfl, rfl, rfl, rfl, rfl, rfl, rfl, rfl, rfl, rfl, rfl, rfl, rfl, fun _ => rfl, engineComplete_none rfl⟩

/-- Settles O11: the state a run starts in is a block just reset, with no host variables. -/
theorem resetMeetsTheInvariant : Obligations.ResetMeetsTheInvariant :=
  ⟨fun _ => stateInv_resetWith, stateInv_resetWith (c := Params.standard) (by decide)⟩

end Sys2Proof.Machine
end
